-- ==== Sys2Proof/Word.lean ====
section
/-! DEFINITION. The word types of the lore hash core (00_scope.md R9-R11): bytes, 32-bit words and the
64-bit length counter, all unsigned. Everything else about bits (byte order, rotation, fields) is in
Decode.lean and under Machine/. -/

namespace Sys2Proof

/-- A byte: MD2 arithmetic is on unsigned 8-bit values (R11). -/
abbrev Byte := BitVec 8

/-- A word: "a 32-bit unsigned integer" (R14). `+` is addition mod 2^32 (R126). -/
abbrev Word := BitVec 32

/-- The width of LEN and of the padding length field (R28, R132). -/
abbrev Length := BitVec 64

end Sys2Proof
end

