-- ==== Sys2Proof/Config.lean ====
section
/-! DEFINITION. What the spec leaves to the platform, and the free values: constants without a body,
so that nothing in Lean can evaluate them or prove a value of one. -/

namespace Sys2Proof

/-- Where the platform places the window, in units of 256 bytes (20_memory.md R61, U13: BASE is OPEN).
DESIGN CHOICE, log entry 8, safe. -/
opaque Config.baseIndex : Nat

/-- `BASE`: "a parameter of the model and is a multiple of 256" (R61). -/
def Config.base : Nat := 256 * Config.baseIndex

/-- `draw32()` (45_commands.md R270, U1): the n-th unconstrained 32-bit value. Also the unspecified words
of R43 and R44. DESIGN CHOICE, log entry 6, safe. -/
opaque Config.draw32 : Nat → Word

/-- The n-th unconstrained byte, for the unspecified bytes of R43 and R44. DESIGN CHOICE, log entry 6, safe. -/
opaque Config.draw8 : Nat → Byte

end Sys2Proof
end

