-- ==== Sys2Proof/Syntax.lean ====
section
/-! DEFINITION. The commands of the block (30_encoding.md R92, R93, R98): one constructor per row of
spec/opcode_table.json. -/

namespace Sys2Proof

/-- A command. INIT has one constructor per algorithm code, as the opcode table has one row per code
(R93). FINAL carries TAIL, "a 6-bit unsigned count" (R94): the type admits 0..63 and nothing else. -/
inductive Instr where
  /-- NOP, word 0x00000000 (R274). -/
  | nop
  /-- INIT md2, ALG = 0 (R275). -/
  | initMd2
  /-- INIT md4, ALG = 1 (R275). -/
  | initMd4
  /-- INIT md5, ALG = 2 (R275). -/
  | initMd5
  /-- INIT sha1, ALG = 3 (R275). -/
  | initSha1
  /-- INIT sha224, ALG = 4: a legal encoding of a reserved function (R97). -/
  | initSha224
  /-- INIT sha256, ALG = 5 (R97). -/
  | initSha256
  /-- INIT sha384, ALG = 6 (R97). -/
  | initSha384
  /-- INIT sha512, ALG = 7 (R97). -/
  | initSha512
  /-- BLOCK, word 0x00000002 (R276). -/
  | block
  /-- FINAL n, word 0x00000003 + 0x100 n (R277). -/
  | final (tail : BitVec 6)
  /-- CLRERR, word 0x00000004 (R278). -/
  | clrerr
  /-- SRST, word 0x00000005 (R279). -/
  | srst
  deriving DecidableEq, Repr

end Sys2Proof
end

