-- ==== Sys2Proof/WellFormed.lean ====
section
/-! DEFINITION. Which command lines an assembler accepts (30_encoding.md R99: it "refuses `final N` with
N > 63 and an unknown algorithm name"). `Instr` itself cannot hold an ill-formed command (TAIL has its
six bits in the type), so the checks stand on the source line, before it becomes an `Instr`. -/

namespace Sys2Proof

/-- A command line as written (R99): the mnemonic and its operand, before the assembler's checks. -/
inductive CommandLine where
  | nop
  /-- `init A`: the algorithm's name. -/
  | init (name : String)
  | block
  /-- `final N`: any decimal number. -/
  | final (n : Nat)
  | clrerr
  | srst
  deriving DecidableEq, Repr

/-- The eight algorithm names of R99, in the order of their codes (R93). -/
def algorithmNames : List String :=
  ["md2", "md4", "md5", "sha1", "sha224", "sha256", "sha384", "sha512"]

/-- The check of `init A`: the name is one of the eight (R99). -/
def knownAlgorithm (name : String) : Bool := algorithmNames.contains name

/-- The check of `final N`: 0 <= N <= 63 (R99). -/
def tailInRange (n : Nat) : Bool := n ≤ 63

/-- A command line an assembler accepts. It "accepts `final 16` under `init md2`" (R99): the current
algorithm is no part of the check. -/
def CommandLine.wellFormed : CommandLine → Bool
  | .nop => true
  | .init name => knownAlgorithm name
  | .block => true
  | .final n => tailInRange n
  | .clrerr => true
  | .srst => true

/-- The command of each algorithm name (R93, R99); `none` for an unknown name. -/
def initNamed (name : String) : Option Instr :=
  if name = "md2" then some .initMd2
  else if name = "md4" then some .initMd4
  else if name = "md5" then some .initMd5
  else if name = "sha1" then some .initSha1
  else if name = "sha224" then some .initSha224
  else if name = "sha256" then some .initSha256
  else if name = "sha384" then some .initSha384
  else if name = "sha512" then some .initSha512
  else none

/-- Assembling one command line (R99): the command, or `none` where the assembler refuses the line. -/
def assemble : CommandLine → Option Instr
  | .nop => some .nop
  | .init name => initNamed name
  | .block => some .block
  | .final n => if tailInRange n then some (.final (BitVec.ofNat 6 n)) else none
  | .clrerr => some .clrerr
  | .srst => some .srst

/-- Every `Instr` is well-formed: each constructor's operands are exactly what the encoding admits (R94). -/
def Instr.wellFormed : Instr → Bool
  | .nop => true
  | .initMd2 => true
  | .initMd4 => true
  | .initMd5 => true
  | .initSha1 => true
  | .initSha224 => true
  | .initSha256 => true
  | .initSha384 => true
  | .initSha512 => true
  | .block => true
  | .final tail => tailInRange tail.toNat
  | .clrerr => true
  | .srst => true

end Sys2Proof
end

