-- ==== Sys2Proof/Decode.lean ====
section
/-! DEFINITION. Decoding and encoding command words (30_encoding.md R90-R98). A command is one 32-bit
word in the register PEND, not a sequence of bytes in memory, so the decoder takes the word. -/

namespace Sys2Proof

/-- Why a word is Illegal (R96): "a reserved bit is 1, OP is 6-15, or a field that the OP does not use is
non-zero". All three raise the one error ILLEGAL_CMD; the block records no difference between them. -/
inductive IllegalWord where
  /-- Bit 7 or one of bits 31:14 is 1. -/
  | reservedBit
  /-- OP is 0x6-0xF. -/
  | reservedOp
  /-- ALG or TAIL is non-zero in a word whose OP does not use it. -/
  | unusedField
  deriving DecidableEq, Repr

/-- OP, bits 3:0 (R91). -/
def opField (w : Word) : BitVec 4 := w.extractLsb' 0 4

/-- ALG, bits 6:4 (R91). -/
def algField (w : Word) : BitVec 3 := w.extractLsb' 4 3

/-- Bit 7, reserved (R91). -/
def reservedBit7 (w : Word) : BitVec 1 := w.extractLsb' 7 1

/-- TAIL, bits 13:8 (R91). -/
def tailField (w : Word) : BitVec 6 := w.extractLsb' 8 6

/-- Bits 31:14, reserved (R91). -/
def reservedHigh (w : Word) : BitVec 18 := w.extractLsb' 14 18

/-- INIT(alg) for each algorithm code (R93). -/
def initOfCode (alg : BitVec 3) : Instr :=
  if alg = 0 then .initMd2
  else if alg = 1 then .initMd4
  else if alg = 2 then .initMd5
  else if alg = 3 then .initSha1
  else if alg = 4 then .initSha224
  else if alg = 5 then .initSha256
  else if alg = 6 then .initSha384
  else .initSha512

/-- `i`, if the fields its OP does not use are zero (R95). -/
def onlyIf (unusedZero : Bool) (i : Instr) : Except IllegalWord Instr :=
  if unusedZero then .ok i else .error .unusedField

/-- `decode` (R95), total on every 32-bit word. -/
def decode (w : Word) : Except IllegalWord Instr :=
  if reservedHigh w ≠ 0 ∨ reservedBit7 w ≠ 0 then .error .reservedBit
  else if opField w = 0x0 then onlyIf (algField w = 0 ∧ tailField w = 0) .nop
  else if opField w = 0x1 then onlyIf (tailField w = 0) (initOfCode (algField w))
  else if opField w = 0x2 then onlyIf (algField w = 0 ∧ tailField w = 0) .block
  else if opField w = 0x3 then onlyIf (algField w = 0) (.final (tailField w))
  else if opField w = 0x4 then onlyIf (algField w = 0 ∧ tailField w = 0) .clrerr
  else if opField w = 0x5 then onlyIf (algField w = 0 ∧ tailField w = 0) .srst
  else .error .reservedOp

/-- The word of each command (R98). -/
def encode : Instr → Word
  | .nop => 0x00000000
  | .initMd2 => 0x00000001
  | .initMd4 => 0x00000011
  | .initMd5 => 0x00000021
  | .initSha1 => 0x00000031
  | .initSha224 => 0x00000041
  | .initSha256 => 0x00000051
  | .initSha384 => 0x00000061
  | .initSha512 => 0x00000071
  | .block => 0x00000002
  | .final tail => 0x00000003 + 0x100 * tail.setWidth 32
  | .clrerr => 0x00000004
  | .srst => 0x00000005

/-- The command register word that `nbits` table bits `w` stand for: bits at `nbits` and above are 0;
`none` where the number does not fit the 32 bits of a command word. -/
def tableWord (nbits w : Nat) : Option Word :=
  if w % 2 ^ nbits < 2 ^ 32 then some (BitVec.ofNat 32 (w % 2 ^ nbits)) else none

/-- The instruction the decoder reads from a word numbered as spec/opcode_table.json numbers it: a command
is one 32-bit register word, so the numbering is the word's own. -/
def decodeTableWord (nbits w : Nat) : Option Instr :=
  (tableWord nbits w).bind fun word => (decode word).toOption

end Sys2Proof
end

