-- ==== Sys2Proof/Machine/State.lean ====
section
/-! DEFINITION. The state of the lore hash core (10_state.md), the reasons a step can stop, and the state
after reset (R44). -/

namespace Sys2Proof.Machine

/-- Why the machine stops. -/
inductive Fault where
  /-- ENGINE_INVARIANT (60_exceptions.md R328, U3, U4, U10). Raised by an engine's step with STEP outside
  its range, by BLOCK and FINAL on PHASE = 3 or an ALG code without an engine, and by `step` on a state
  with PHASE = 3, ERRCODE 6-15 or ALG 4-7. Safe: the spec names it a fault, and no run reaches it. -/
  | engineInvariant
  /-- The host is stuck at an access that is not admitted (20_memory.md R62, U5), and no command is
  pending. Raised by `step`. Safe: the spec gives the access no step. -/
  | hostStuck
  deriving DecidableEq, Repr

/-- Why a step has no meaning. -/
inductive Refusal where
  /-- The instruction has no meaning in the model yet. Raised by an arm of `exec`, by name. Safe. No arm
  raises it: every command has its meaning. -/
  | notModelled (mnemonic : String)
  deriving DecidableEq, Repr

/-- An error a command raises (60_exceptions.md R322). Its code is `errorCode`. -/
inductive CommandError where
  /-- "the command word decodes as Illegal". -/
  | illegalCmd
  /-- "INIT with ALG = 4..7". -/
  | unimplAlg
  /-- "BLOCK or FINAL while PHASE = IDLE". -/
  | notInit
  /-- "BLOCK or FINAL while PHASE = DONE". -/
  | alreadyFinal
  /-- "FINAL with TAIL >= 16 while ALG = MD2". -/
  | badTail
  deriving DecidableEq, Repr

/-- The algorithm state (R21, R23-R27): opaque to the host (R47). -/
structure AlgoState where
  /-- Chaining registers H0-H4: A-D of MD4 and MD5, A-E of SHA-1 (R23). -/
  h0 : Word
  h1 : Word
  h2 : Word
  h3 : Word
  h4 : Word
  /-- The MD2 working buffer X[0..48] (R25). -/
  x : Vector Byte 48
  /-- The MD2 running checksum C[0..16] (R26). -/
  c : Vector Byte 16
  /-- The MD2 checksum link L (R26), kept separately from C[15] (R27). -/
  l : Byte
  deriving DecidableEq, Repr

/-- The datapath micro-state (R43): what a compression works in. It is live only inside one engine step;
"Its value between engine steps is unspecified and never observed". -/
structure Micro where
  /-- Working registers a-e. -/
  a : Word
  b : Word
  c : Word
  d : Word
  e : Word
  /-- The SHA-1 schedule W[0..80] (44_sha1.md R242). -/
  w : Vector Word 80
  /-- The MD4/MD5 message words M[0..16] (42_md4.md R182). -/
  m : Vector Word 16
  /-- The MD2 byte t (41_md2.md R156). -/
  t : Byte
  /-- The MD2 round index r. -/
  r : Nat
  /-- STEP, the steps of the current compression done so far (R41). -/
  step : Nat
  deriving DecidableEq, Repr

/-- The width of a host access (20_memory.md R62). -/
inductive AccessWidth where
  | bits8
  | bits16
  | bits32
  deriving DecidableEq, Repr

/-- What the outside does to the block: a bus access at a window offset (45_commands.md R270, R271), one of the
two lines of a host program that act on the value they read (30_encoding.md R100), or the hardware reset input
(70_reset_and_hazards.md R350). -/
inductive HostOp where
  | read (width : AccessWidth) (off : BitVec 8)
  | write (width : AccessWidth) (off : BitVec 8) (v : Word)
  /-- `wait`: a read of STATUS, and again while its bit 0 is 1. -/
  | wait
  /-- `checkerr`: a read of STATUS, and the host's test of bit 3. -/
  | checkErr
  | reset
  deriving DecidableEq, Repr

/-- One thing that arrives from outside. `before` fixes its place among the engine's steps (R20: "the order
between host and engine steps is free"): it is the number of steps this input takes before a command that is
pending when it is next. With 0 the command executes first. An access is one step, so any other number puts it
before the command; a `wait` takes one step a poll, so for it `before` counts the polls that find BUSY = 1. Log
entry 2. -/
structure Input where
  before : Nat
  op : HostOp
  deriving DecidableEq, Repr

/-- The state of the block, and the model's own bookkeeping of the world outside it. -/
structure State where
  /-- STATUS bit 0: a command is pending (R29, R33). -/
  busy : Bool
  /-- STATUS bits 2:1 (R30): 0 IDLE, 1 ABSORB, 2 DONE, 3 never produced. -/
  phase : BitVec 2
  /-- STATUS bit 3: sticky error flag (R32). -/
  err : Bool
  /-- STATUS bits 7:4: code of the first error since ERR was last 0 (R32, R322). -/
  errCode : BitVec 4
  /-- STATUS bits 10:8: algorithm of the last successful INIT (R31). -/
  alg : BitVec 3
  /-- STATUS bit 11: a host write was dropped (R33). -/
  ovr : Bool
  /-- LEN, the message bytes so far (R28). -/
  len : Length
  /-- BLK[0..64], the block buffer the host owns (R38). -/
  blk : Vector Byte 64
  /-- DIG[0..20], the digest register (R39). -/
  dig : Vector Byte 20
  /-- PEND, the command word last latched (R42). -/
  pend : Word
  /-- H0-H4, X, C, L. -/
  algo : AlgoState
  /-- The datapath micro-state, unspecified between engine steps (R43). -/
  micro : Micro
  /-- Model: what is still to arrive from outside, oldest first (R20, R70). Log entry 2. -/
  inputs : List Input
  /-- Model: the values bus reads have returned, newest first (the host variables of R99). Log entry 3. -/
  reads : List Word
  /-- Model: what each `checkerr` of the host has found (30_encoding.md R100), newest first: `none` where
  STATUS bit 3 was 0, else the code STATUS bits 7:4. Log entry 3. -/
  checks : List (Option (BitVec 4))
  /-- Model: how many free values have been drawn. Log entry 6. -/
  draws : Nat
  deriving DecidableEq, Repr

/-- The three outcomes of a command or a step. -/
abbrev Outcome := Host.Outcome State Fault Refusal

/-- The algorithm state of `State.reset`. The spec leaves it unspecified (R44). DESIGN CHOICE: all zero,
log entry 4, unsafe. -/
def AlgoState.zero : AlgoState where
  h0 := 0
  h1 := 0
  h2 := 0
  h3 := 0
  h4 := 0
  x := Vector.replicate 48 0
  c := Vector.replicate 16 0
  l := 0

/-- The micro-state of `State.reset`. The spec leaves it unspecified (R44). DESIGN CHOICE: all zero, log
entry 4, unsafe. -/
def Micro.zero : Micro where
  a := 0
  b := 0
  c := 0
  d := 0
  e := 0
  w := Vector.replicate 80 0
  m := Vector.replicate 16 0
  t := 0
  r := 0
  step := 0

/-- The machine right after a hardware reset (R44, R351), with nothing arriving from outside. PEND, the
algorithm state and the micro-state, which the spec leaves unspecified, are zero (log entry 4). -/
def State.reset : State where
  busy := false
  phase := 0
  err := false
  errCode := 0
  alg := 0
  ovr := false
  len := 0
  blk := Vector.replicate 64 0
  dig := Vector.replicate 20 0
  pend := 0
  algo := AlgoState.zero
  micro := Micro.zero
  inputs := []
  reads := []
  checks := []
  draws := 0

end Sys2Proof.Machine
end

