-- ==== Sys2Proof/Machine/Codec.lean ====
section
/-! DEFINITION. The byte/word codec, the word primitives and the padding (00_scope.md R11,
40_codec_padding.md R120-R135). -/

namespace Sys2Proof.Machine

/-- `rotl(x, s)` for 0 <= s < 32 (R11, R125): `((x << s) | (x >> (32 - s))) mod 2^32`; `rotl(x, 0) = x`. -/
def rotl (x : Word) (s : Nat) : Word := (x <<< s) ||| (x >>> (32 - s))

/-- The two byte orders (20_memory.md R64). -/
inductive ByteOrder where
  | littleEndian
  | bigEndian
  deriving DecidableEq, Repr

/-- `LE32` (R120). -/
def le32 (b0 b1 b2 b3 : Byte) : Word :=
  b0.setWidth 32 ||| b1.setWidth 32 <<< 8 ||| b2.setWidth 32 <<< 16 ||| b3.setWidth 32 <<< 24

/-- `BE32` (R121). -/
def be32 (b0 b1 b2 b3 : Byte) : Word :=
  b0.setWidth 32 <<< 24 ||| b1.setWidth 32 <<< 16 ||| b2.setWidth 32 <<< 8 ||| b3.setWidth 32

/-- Four bytes as a word "in the given byte order" (R122). -/
def wordOf (e : ByteOrder) (b0 b1 b2 b3 : Byte) : Word :=
  match e with
  | .littleEndian => le32 b0 b1 b2 b3
  | .bigEndian => be32 b0 b1 b2 b3

/-- Byte j of a word, bits 8j+7 to 8j (R10). -/
def byteOf (w : Word) (j : Nat) : Byte := w.extractLsb' (8 * j) 8

/-- Byte j of a word serialised in the given order (R123). -/
def serialByte (e : ByteOrder) (w : Word) (j : Nat) : Byte :=
  match e with
  | .littleEndian => byteOf w j
  | .bigEndian => byteOf w (3 - j)

/-- `bytes_to_words(B, e)` (R122) on a sequence whose length is a multiple of 4 by its type. -/
def bytesToWords (n : Nat) (e : ByteOrder) (B : Vector Byte (4 * n)) : Vector Word n :=
  Vector.ofFn fun k => wordOf e B[4 * k.val] B[4 * k.val + 1] B[4 * k.val + 2] B[4 * k.val + 3]

/-- `words_to_bytes(W, e)` (R123). -/
def wordsToBytes (n : Nat) (e : ByteOrder) (W : Vector Word n) : Vector Byte (4 * n) :=
  Vector.ofFn fun i => serialByte e W[i.val / 4] (i.val % 4)

/-- `bytes_to_words` on a sequence of any length: a length that is not a multiple of 4 is refused (R122,
U11). -/
def bytesToWordsChecked (e : ByteOrder) : List Byte → Option (List Word)
  | [] => some []
  | b0 :: b1 :: b2 :: b3 :: rest =>
    (bytesToWordsChecked e rest).map fun ws => wordOf e b0 b1 b2 b3 :: ws
  | _ => none

/-- The padding's length field: `bits = (8 · L) mod 2^64` (R132) as 8 bytes, least significant first (LE) or
most significant first (BE) (R130). -/
def lengthField (e : ByteOrder) (len : Length) : List Byte :=
  let bits := 8 * len
  let low : Word := bits.extractLsb' 0 32
  let high : Word := bits.extractLsb' 32 32
  match e with
  | .littleEndian => (wordsToBytes 2 .littleEndian #v[low, high]).toList
  | .bigEndian => (wordsToBytes 2 .bigEndian #v[high, low]).toList

/-- The number of zero bytes after the 0x80 byte: `(55 - n) mod 64` (R130, R133). -/
def zeroBytes (n : Nat) : Nat := (119 - n % 64) % 64

/-- `pad_tail_md(T, Ltot, e)` (R133): MD4, MD5 (LE) and SHA-1 (BE). -/
def padTailMd (e : ByteOrder) (tail : List Byte) (len : Length) : List Byte :=
  tail ++ [0x80] ++ List.replicate (zeroBytes tail.length) 0x00 ++ lengthField e len

/-- `pad_tail_md2(T)` (R133): `T ++ p^p` with p = 16 - n. -/
def padTailMd2 (tail : List Byte) : List Byte :=
  tail ++ List.replicate (16 - tail.length) (BitVec.ofNat 8 (16 - tail.length))

/-- `pad_md(m, e)` (R130) of a whole message. -/
def padMd (e : ByteOrder) (m : List Byte) : List Byte :=
  m ++ [0x80] ++ List.replicate (zeroBytes m.length) 0x00 ++ lengthField e (BitVec.ofNat 64 m.length)

/-- `pad_md2(m)` (R128) of a whole message: n bytes each equal to n, with n = 16 - (len(m) mod 16). -/
def padMd2 (m : List Byte) : List Byte :=
  let n := 16 - m.length % 16
  m ++ List.replicate n (BitVec.ofNat 8 n)

/-- The slice `P[n·k .. n·k + n]` as a block of n bytes. -/
def blockAt (n : Nat) (P : List Byte) (k : Nat) : Vector Byte n :=
  Vector.ofFn fun i => P.getD (n * k + i.val) 0

/-- The blocks of n bytes of a byte sequence, in order. -/
def blocksOf (n : Nat) (P : List Byte) : List (Vector Byte n) :=
  (List.range (P.length / n)).map (blockAt n P)

end Sys2Proof.Machine
end

