-- ==== Sys2Proof/Machine/Rom.lean ====
section
/-! DEFINITION. The constant ROM space (20_memory.md R78): the read-only tables of the datapath. The widths
of the entries are those of R78, so an index of a table (a 4-bit word index, an 8-bit S-box index) cannot
fall outside what it selects from. -/

namespace Sys2Proof.Machine

/-- ID (10_state.md R34): "LORE" as a big-endian word. -/
def idWord : Word := 0x4C4F5245

/-- CAPS (R35): bit k is 1 exactly when INIT with ALG = k succeeds. -/
def capsWord : Word := 0x0000000F

/-- The MD2 S-box (41_md2.md R151), one row of the rule's table in each vector: entry 16·row + col. -/
def sBoxRows : Vector (Vector Byte 16) 16 :=
  #v[
    #v[41, 46, 67, 201, 162, 216, 124, 1, 61, 54, 84, 161, 236, 240, 6, 19],
    #v[98, 167, 5, 243, 192, 199, 115, 140, 152, 147, 43, 217, 188, 76, 130, 202],
    #v[30, 155, 87, 60, 253, 212, 224, 22, 103, 66, 111, 24, 138, 23, 229, 18],
    #v[190, 78, 196, 214, 218, 158, 222, 73, 160, 251, 245, 142, 187, 47, 238, 122],
    #v[169, 104, 121, 145, 21, 178, 7, 63, 148, 194, 16, 137, 11, 34, 95, 33],
    #v[128, 127, 93, 154, 90, 144, 50, 39, 53, 62, 204, 231, 191, 247, 151, 3],
    #v[255, 25, 48, 179, 72, 165, 181, 209, 215, 94, 146, 42, 172, 86, 170, 198],
    #v[79, 184, 56, 210, 150, 164, 125, 182, 118, 252, 107, 226, 156, 116, 4, 241],
    #v[69, 157, 112, 89, 100, 113, 135, 32, 134, 91, 207, 101, 230, 45, 168, 2],
    #v[27, 96, 37, 173, 174, 176, 185, 246, 28, 70, 97, 105, 52, 64, 126, 15],
    #v[85, 71, 163, 35, 221, 81, 175, 58, 195, 92, 249, 206, 186, 197, 234, 38],
    #v[44, 83, 13, 110, 133, 40, 132, 9, 211, 223, 205, 244, 65, 129, 77, 82],
    #v[106, 220, 55, 200, 108, 193, 171, 250, 36, 225, 123, 8, 12, 189, 177, 74],
    #v[120, 136, 149, 139, 227, 99, 232, 109, 233, 203, 213, 254, 59, 0, 29, 57],
    #v[242, 239, 183, 14, 102, 88, 208, 228, 166, 119, 114, 248, 235, 117, 75, 10],
    #v[49, 68, 80, 180, 143, 237, 31, 26, 219, 153, 141, 51, 159, 17, 131, 20]]

/-- `S[i]` (R151): "Every S-box index in the MD2 rules is an 8-bit value" (R152). -/
def sBox (i : Byte) : Byte := sBoxRows[(i.extractLsb' 4 4).toNat][(i.extractLsb' 0 4).toNat]

/-- IV_MD (42_md4.md R180): the initial values of MD4 and MD5. -/
def ivMd : Vector Word 4 := #v[0x67452301, 0xefcdab89, 0x98badcfe, 0x10325476]

/-- IV_SHA1 (44_sha1.md R240). -/
def ivSha1 : Vector Word 5 := #v[0x67452301, 0xefcdab89, 0x98badcfe, 0x10325476, 0xc3d2e1f0]

/-- MD4_SHIFT (42_md4.md R184): rounds of 16 steps, each with four amounts repeated four times. -/
def md4Shift : Vector (BitVec 5) 48 :=
  #v[3, 7, 11, 19, 3, 7, 11, 19, 3, 7, 11, 19, 3, 7, 11, 19,
    3, 5, 9, 13, 3, 5, 9, 13, 3, 5, 9, 13, 3, 5, 9, 13,
    3, 9, 11, 15, 3, 9, 11, 15, 3, 9, 11, 15, 3, 9, 11, 15]

/-- MD4_INDEX (42_md4.md R185): sequential, stride 4, 4-bit reversal. -/
def md4Index : Vector (BitVec 4) 48 :=
  #v[0, 1, 2, 3, 4, 5, 6, 7, 8, 9, 10, 11, 12, 13, 14, 15,
    0, 4, 8, 12, 1, 5, 9, 13, 2, 6, 10, 14, 3, 7, 11, 15,
    0, 8, 4, 12, 2, 10, 6, 14, 1, 9, 5, 13, 3, 11, 7, 15]

/-- MD4_K (42_md4.md R183): one constant per round. -/
def md4K : Vector Word 3 := #v[0x00000000, 0x5a827999, 0x6ed9eba1]

/-- MD5_K (43_md5.md R213). -/
def md5K : Vector Word 64 :=
  #v[
    0xd76aa478, 0xe8c7b756, 0x242070db, 0xc1bdceee, 0xf57c0faf, 0x4787c62a, 0xa8304613, 0xfd469501,
    0x698098d8, 0x8b44f7af, 0xffff5bb1, 0x895cd7be, 0x6b901122, 0xfd987193, 0xa679438e, 0x49b40821,
    0xf61e2562, 0xc040b340, 0x265e5a51, 0xe9b6c7aa, 0xd62f105d, 0x02441453, 0xd8a1e681, 0xe7d3fbc8,
    0x21e1cde6, 0xc33707d6, 0xf4d50d87, 0x455a14ed, 0xa9e3e905, 0xfcefa3f8, 0x676f02d9, 0x8d2a4c8a,
    0xfffa3942, 0x8771f681, 0x6d9d6122, 0xfde5380c, 0xa4beea44, 0x4bdecfa9, 0xf6bb4b60, 0xbebfbc70,
    0x289b7ec6, 0xeaa127fa, 0xd4ef3085, 0x04881d05, 0xd9d4d039, 0xe6db99e5, 0x1fa27cf8, 0xc4ac5665,
    0xf4292244, 0x432aff97, 0xab9423a7, 0xfc93a039, 0x655b59c3, 0x8f0ccc92, 0xffeff47d, 0x85845dd1,
    0x6fa87e4f, 0xfe2ce6e0, 0xa3014314, 0x4e0811a1, 0xf7537e82, 0xbd3af235, 0x2ad7d2bb, 0xeb86d391]

/-- MD5_SHIFT (43_md5.md R214). -/
def md5Shift : Vector (BitVec 5) 64 :=
  #v[7, 12, 17, 22, 7, 12, 17, 22, 7, 12, 17, 22, 7, 12, 17, 22,
    5, 9, 14, 20, 5, 9, 14, 20, 5, 9, 14, 20, 5, 9, 14, 20,
    4, 11, 16, 23, 4, 11, 16, 23, 4, 11, 16, 23, 4, 11, 16, 23,
    6, 10, 15, 21, 6, 10, 15, 21, 6, 10, 15, 21, 6, 10, 15, 21]

/-- MD5_INDEX (43_md5.md R215): j, (1 + 5j), (5 + 3j), 7j, each mod 16. -/
def md5Index : Vector (BitVec 4) 64 :=
  #v[0, 1, 2, 3, 4, 5, 6, 7, 8, 9, 10, 11, 12, 13, 14, 15,
    1, 6, 11, 0, 5, 10, 15, 4, 9, 14, 3, 8, 13, 2, 7, 12,
    5, 8, 11, 14, 1, 4, 7, 10, 13, 0, 3, 6, 9, 12, 15, 2,
    0, 7, 14, 5, 12, 3, 10, 1, 8, 15, 6, 13, 4, 11, 2, 9]

/-- SHA1_K (44_sha1.md R244): one constant per round. -/
def sha1K : Vector Word 4 := #v[0x5a827999, 0x6ed9eba1, 0x8f1bbcdc, 0xca62c1d6]

end Sys2Proof.Machine
end

