-- ==== Sys2Proof/Machine/Flags.lean ====
section
/-! DEFINITION. The STATUS fields (10_state.md R29-R33) and the error codes (60_exceptions.md R322). -/

namespace Sys2Proof.Machine

/-- PHASE = IDLE: no algorithm is selected (R30). -/
def phaseIdle : BitVec 2 := 0

/-- PHASE = ABSORB: BLOCK and FINAL are accepted (R30). -/
def phaseAbsorb : BitVec 2 := 1

/-- PHASE = DONE: DIG holds the digest (R30). -/
def phaseDone : BitVec 2 := 2

/-- ALG codes of the implemented algorithms (30_encoding.md R93). -/
def algMd2 : BitVec 3 := 0
def algMd4 : BitVec 3 := 1
def algMd5 : BitVec 3 := 2
def algSha1 : BitVec 3 := 3

/-- The code of each error (R322). -/
def errorCode : CommandError → BitVec 4
  | .illegalCmd => 1
  | .unimplAlg => 2
  | .notInit => 3
  | .alreadyFinal => 4
  | .badTail => 5

/-- A flag as bit 0 of a word. -/
def flagWord (b : Bool) : Word := (BitVec.ofBool b).setWidth 32

/-- `STATUS = BUSY | PHASE<<1 | ERR<<3 | ERRCODE<<4 | ALG<<8 | OVR<<11` (R29); bits 31:12 read as 0. -/
def statusWord (s : State) : Word :=
  flagWord s.busy ||| s.phase.setWidth 32 <<< 1 ||| flagWord s.err <<< 3 |||
    s.errCode.setWidth 32 <<< 4 ||| s.alg.setWidth 32 <<< 8 ||| flagWord s.ovr <<< 11

/-- No field holds a value "never produced": PHASE = 3 (R30, U4), ERRCODE 6-15 (R322, U10), ALG 4-7 (R31).
A state where this fails is treated as ENGINE_INVARIANT. -/
def fieldsInRange (s : State) : Bool :=
  s.phase ≠ 3 && s.errCode.toNat ≤ 5 && s.alg.toNat ≤ 3

end Sys2Proof.Machine
end

