-- ==== Sys2Proof/Machine/Operands.lean ====
section
/-! DEFINITION. The operands of the commands: TAIL, the tail bytes, the block an algorithm reads (30_encoding.md
R94, 45_commands.md R276, R277). -/

namespace Sys2Proof.Machine

/-- TAIL as a count, "zero-extended, giving 0..63" (R94). -/
def tailCount (tail : BitVec 6) : Nat := tail.toNat

/-- TAIL as an addend of LEN (10_state.md R28). -/
def tailLength (tail : BitVec 6) : Length := tail.setWidth 64

/-- The message tail `T = BLK[0..n]` of FINAL n (R277): bytes at index n and above are not read. -/
def tailBytes (tail : BitVec 6) (s : State) : List Byte := s.blk.toList.take (tailCount tail)

/-- `BLK[0..16]`, the block an MD2 BLOCK reads (R276). -/
def firstSixteen (blk : Vector Byte 64) : Vector Byte 16 :=
  Vector.ofFn fun i => blk[i.val]

/-- `bs`, the block size BLOCK adds to LEN: 16 (MD2) or 64 (R276). -/
def blockLength (alg : BitVec 3) : Length := if alg = algMd2 then 16 else 64

end Sys2Proof.Machine
end

