-- ==== Sys2Proof/Machine/Rounds.lean ====
section
/-! DEFINITION. What the MD4, MD5 and SHA-1 engines share: the round functions (42_md4.md R183, 43_md5.md
R212, 44_sha1.md R244), the working registers, the loop over STEP (10_state.md R41), and the fold over
blocks (20_memory.md R73). -/

namespace Sys2Proof.Machine

/-- `F(x,y,z) = (x & y) | (~x & z)`: MD4 and MD5 round 1, SHA-1 F1. -/
def roundF (x y z : Word) : Word := (x &&& y) ||| (~~~x &&& z)

/-- `(x & y) | (x & z) | (y & z)`: MD4_G, SHA-1 F3. -/
def roundMajority (x y z : Word) : Word := (x &&& y) ||| (x &&& z) ||| (y &&& z)

/-- `x ^ y ^ z`: H of MD4 and MD5, F2 and F4 of SHA-1. -/
def roundParity (x y z : Word) : Word := x ^^^ y ^^^ z

/-- `MD5_G(x,y,z) = (x & z) | (y & ~z)`. -/
def roundG5 (x y z : Word) : Word := (x &&& z) ||| (y &&& ~~~z)

/-- `I(x,y,z) = y ^ (x | ~z)`: MD5 round 4. -/
def roundI (x y z : Word) : Word := y ^^^ (x ||| ~~~z)

/-- The working registers (a, b, c, d) of MD4 and MD5. -/
structure Quad where
  a : Word
  b : Word
  c : Word
  d : Word
  deriving DecidableEq, Repr

/-- The working registers (a, b, c, d, e) of SHA-1. -/
structure Quint where
  a : Word
  b : Word
  c : Word
  d : Word
  e : Word
  deriving DecidableEq, Repr

/-- `(a, b, c, d) = (H0, H1, H2, H3)`. -/
def quadOf (h : AlgoState) : Quad := ⟨h.h0, h.h1, h.h2, h.h3⟩

/-- `(a, b, c, d, e) = (H0, H1, H2, H3, H4)`. -/
def quintOf (h : AlgoState) : Quint := ⟨h.h0, h.h1, h.h2, h.h3, h.h4⟩

/-- `H0 <- H0 + a ; ... ; H3 <- H3 + d` (42_md4.md R188): H4 is not touched. -/
def addQuad (h : AlgoState) (q : Quad) : AlgoState :=
  { h with h0 := h.h0 + q.a, h1 := h.h1 + q.b, h2 := h.h2 + q.c, h3 := h.h3 + q.d }

/-- `H0 <- H0 + a ; ... ; H4 <- H4 + e` (44_sha1.md R246). -/
def addQuint (h : AlgoState) (q : Quint) : AlgoState :=
  { h with h0 := h.h0 + q.a, h1 := h.h1 + q.b, h2 := h.h2 + q.c, h3 := h.h3 + q.d, h4 := h.h4 + q.e }

/-- (a, b, c, d) of the micro-state. -/
def microQuad (μ : Micro) : Quad := ⟨μ.a, μ.b, μ.c, μ.d⟩

/-- (a, b, c, d, e) of the micro-state. -/
def microQuint (μ : Micro) : Quint := ⟨μ.a, μ.b, μ.c, μ.d, μ.e⟩

/-- The micro-state after one step: new working registers, and STEP "advances by exactly 1" (R41). -/
def setQuad (μ : Micro) (q : Quad) : Micro :=
  { μ with a := q.a, b := q.b, c := q.c, d := q.d, step := μ.step + 1 }

/-- The same for five registers. -/
def setQuint (μ : Micro) (q : Quint) : Micro :=
  { μ with a := q.a, b := q.b, c := q.c, d := q.d, e := q.e, step := μ.step + 1 }

/-- The micro-state at the start of an MD4 or MD5 compression: "STEP starts at 0 for each compression" (R41). -/
def loadQuad (μ : Micro) (h : AlgoState) (M : Vector Word 16) : Micro :=
  { μ with a := h.h0, b := h.h1, c := h.h2, d := h.h3, m := M, step := 0 }

/-- The micro-state at the start of a SHA-1 compression. -/
def loadQuint (μ : Micro) (h : AlgoState) (W : Vector Word 80) : Micro :=
  { μ with a := h.h0, b := h.h1, c := h.h2, d := h.h3, e := h.h4, w := W, step := 0 }

/-- A fixed number of steps of an engine, stopping at a fault (R41, 60_exceptions.md R328). -/
def runSteps {α : Type} (f : α → Except Fault α) : Nat → α → Except Fault α
  | 0, μ => .ok μ
  | n + 1, μ =>
    match f μ with
    | .ok μ' => runSteps f n μ'
    | .error r => .error r

/-- A sequence of blocks folded in order, each starting from the state the one before left (20_memory.md R73). -/
def foldBlocks {n : Nat} (compress : AlgoState → Vector Byte n → Except Fault AlgoState) :
    List (Vector Byte n) → AlgoState → Except Fault AlgoState
  | [], h => .ok h
  | B :: Bs, h =>
    match compress h B with
    | .ok h' => foldBlocks compress Bs h'
    | .error r => .error r

/-- `DIG[0..16] <- words_to_bytes([H0, H1, H2, H3], LE) ; DIG[16..20] <- 0^4` (42_md4.md R190, 43_md5.md R220). -/
def digestLe (h : AlgoState) : Vector Byte 20 :=
  wordsToBytes 4 .littleEndian #v[h.h0, h.h1, h.h2, h.h3] ++ (Vector.replicate 4 0 : Vector Byte 4)

/-- `DIG[0..20] <- words_to_bytes([H0, H1, H2, H3, H4], BE)` (44_sha1.md R247). -/
def digestBe (h : AlgoState) : Vector Byte 20 :=
  wordsToBytes 5 .bigEndian #v[h.h0, h.h1, h.h2, h.h3, h.h4]

end Sys2Proof.Machine
end

