-- ==== Sys2Proof/Machine/Md2.lean ====
section
/-! DEFINITION. The MD2 engine (41_md2.md R150-R161). `md2Compress` is the rules' function; `md2Engine` is the
same compression stepped through the micro-state, with the range check of STEP (10_state.md R41, R43). -/

namespace Sys2Proof.Machine

/-- INIT md2 (R153): `X <- 0^48 ; C <- 0^16 ; L <- 0`. -/
def md2Init (h : AlgoState) : AlgoState :=
  { h with x := Vector.replicate 48 0, c := Vector.replicate 16 0, l := 0 }

/-- One byte of the checksum update (R154): `C[i] <- C[i] ^ S[B[i] ^ L] ; L <- C[i]`. -/
def md2ChecksumByte (B : Vector Byte 16) (p : Vector Byte 16 × Byte) (i : Fin 16) : Vector Byte 16 × Byte :=
  let v := p.1[i] ^^^ sBox (B[i] ^^^ p.2)
  (p.1.set i v, v)

/-- `md2_checksum_update(C, L, B)` (R154). -/
def md2ChecksumUpdate (C : Vector Byte 16) (L : Byte) (B : Vector Byte 16) : Vector Byte 16 × Byte :=
  (List.finRange 16).foldl (md2ChecksumByte B) (C, L)

/-- The load phase (R155): X[16..32] is the block, X[32..48] its XOR with X[0..16]. -/
def md2Load (X : Vector Byte 48) (B : Vector Byte 16) : Vector Byte 48 :=
  Vector.ofFn fun i =>
    if h1 : i.val < 16 then X[i.val]
    else if h2 : i.val < 32 then B[i.val - 16]
    else B[i.val - 32] ^^^ X[i.val - 32]

/-- One byte of a round (R156): `X[j] <- X[j] ^ S[t] ; t <- X[j]`. -/
def md2RoundByte (p : Vector Byte 48 × Byte) (j : Fin 48) : Vector Byte 48 × Byte :=
  let v := p.1[j] ^^^ sBox p.2
  (p.1.set j v, v)

/-- Round r (R156): the 48 bytes in order, then `t <- (t + r) mod 256`. -/
def md2Round (p : Vector Byte 48 × Byte) (r : Nat) : Vector Byte 48 × Byte :=
  let q := (List.finRange 48).foldl md2RoundByte p
  (q.1, q.2 + BitVec.ofNat 8 r)

/-- `md2_compress(X, B)` (R155, R156): the load, then 18 rounds with t = 0 at the start. -/
def md2Compress (X : Vector Byte 48) (B : Vector Byte 16) : Vector Byte 48 :=
  ((List.range 18).foldl md2Round (md2Load X B, 0)).1

/-- One of the 18 · 48 byte-steps (R157) of the engine, on X and the micro-state's t, r and STEP. -/
def md2MicroStep (p : Vector Byte 48 × Micro) : Except Fault (Vector Byte 48 × Micro) :=
  if p.2.step < 864 then
    let q := md2RoundByte (p.1, p.2.t) ⟨p.2.step % 48, Nat.mod_lt _ (by decide)⟩
    if p.2.step % 48 = 47 then
      .ok (q.1, { p.2 with t := q.2 + BitVec.ofNat 8 p.2.r, r := p.2.r + 1, step := p.2.step + 1 })
    else
      .ok (q.1, { p.2 with t := q.2, step := p.2.step + 1 })
  else .error .engineInvariant

/-- The MD2 compression stepped through the micro-state (R41, R43). -/
def md2Engine (μ : Micro) (X : Vector Byte 48) (B : Vector Byte 16) : Except Fault (Vector Byte 48) :=
  match runSteps md2MicroStep 864 (md2Load X B, { μ with t := 0, r := 0, step := 0 }) with
  | .ok p => .ok p.1
  | .error r => .error r

/-- `md2_absorb(B)` (R158): the checksum update and the compression. -/
def md2Absorb (h : AlgoState) (B : Vector Byte 16) : AlgoState :=
  { h with
    c := (md2ChecksumUpdate h.c h.l B).1
    l := (md2ChecksumUpdate h.c h.l B).2
    x := md2Compress h.x B }

/-- `md2_absorb(B)` by the engine. -/
def md2EngineAbsorb (μ : Micro) (h : AlgoState) (B : Vector Byte 16) : Except Fault AlgoState :=
  match md2Engine μ h.x B with
  | .ok X => .ok { h with c := (md2ChecksumUpdate h.c h.l B).1, l := (md2ChecksumUpdate h.c h.l B).2, x := X }
  | .error r => .error r

/-- The algorithm state after `md2_final(T)` (R159): the padded tail absorbed, then the checksum block, which
"updates only X". -/
def md2Final (h : AlgoState) (tail : List Byte) : AlgoState :=
  let h' := md2Absorb h (blockAt 16 (padTailMd2 tail) 0)
  { h' with x := md2Compress h'.x h'.c }

/-- `md2_final(T)` by the engine. -/
def md2EngineFinal (μ : Micro) (h : AlgoState) (tail : List Byte) : Except Fault AlgoState :=
  match md2EngineAbsorb μ h (blockAt 16 (padTailMd2 tail) 0) with
  | .ok h' =>
    match md2Engine μ h'.x h'.c with
    | .ok X => .ok { h' with x := X }
    | .error r => .error r
  | .error r => .error r

/-- The digest X[0..16] (R159). -/
def md2Digest (h : AlgoState) : Vector Byte 16 := Vector.ofFn fun i => h.x[i.val]

/-- `DIG[0..16] <- X[0..16] ; DIG[16..20] <- 0^4` (45_commands.md R277). -/
def digestMd2 (h : AlgoState) : Vector Byte 20 := md2Digest h ++ (Vector.replicate 4 0 : Vector Byte 4)

/-- `md2_checksum(P)` of a padded message (40_codec_padding.md R129). -/
def md2Checksum (P : List Byte) : Vector Byte 16 :=
  ((blocksOf 16 P).foldl (fun p B => md2ChecksumUpdate p.1 p.2 B) (Vector.replicate 16 0, 0)).1

/-- `md2(m)` (R161). The registers outside X, C and L are not part of MD2. -/
def md2 (m : List Byte) : Vector Byte 16 :=
  let h := (blocksOf 16 (padMd2 m)).foldl md2Absorb (md2Init AlgoState.zero)
  md2Digest { h with x := md2Compress h.x h.c }

/-- MD2 as lore orders it (R160): the checksum of the whole padded message first, then the padded blocks and
the checksum block compressed in order. -/
def md2TwoPass (m : List Byte) : Vector Byte 16 :=
  let X := (blocksOf 16 (padMd2 m) ++ [md2Checksum (padMd2 m)]).foldl md2Compress (Vector.replicate 48 0)
  Vector.ofFn fun i => X[i.val]

end Sys2Proof.Machine
end

