-- ==== Sys2Proof/Machine/Md4.lean ====
section
/-! DEFINITION. The MD4 engine (42_md4.md R180-R191), with the register update of 90_conflicts.md C1.
`md4Compress` is the rules' function; `md4Engine` is the same compression stepped through the micro-state,
with the range check of STEP (10_state.md R41, R43). -/

namespace Sys2Proof.Machine

/-- INIT md4 (R181): `H0..H3 <- IV_MD ; H4 <- 0`. -/
def md4Init (h : AlgoState) : AlgoState :=
  { h with h0 := ivMd[0], h1 := ivMd[1], h2 := ivMd[2], h3 := ivMd[3], h4 := 0 }

/-- The round function of step i (R183): round `i div 16 + 1`. -/
def md4RoundFn (i : Fin 48) : Word → Word → Word → Word :=
  if i.val / 16 = 0 then roundF else if i.val / 16 = 1 then roundMajority else roundParity

/-- K_i, the constant of step i's round (R183). -/
def md4Constant (i : Fin 48) : Word := md4K[i.val / 16]

/-- The message word of step i, `M[MD4_INDEX[i]]`. -/
def md4Word (M : Vector Word 16) (i : Fin 48) : Word := M[md4Index[i].toNat]

/-- The value computed by step i (R187): `rotl(a + f_i(b, c, d) + M[MD4_INDEX[i]] + K_i, MD4_SHIFT[i])`. -/
def md4Value (M : Vector Word 16) (i : Fin 48) (a b c d : Word) : Word :=
  rotl (a + md4RoundFn i b c d + md4Word M i + md4Constant i) md4Shift[i].toNat

/-- `md4_step(i, (a, b, c, d))` (R187): new (a, b, c, d) = (d, t, b, c). -/
def md4Step (M : Vector Word 16) (q : Quad) (i : Fin 48) : Quad :=
  ⟨q.d, md4Value M i q.a q.b q.c q.d, q.b, q.c⟩

/-- The 48 steps (R188). -/
def md4Steps (M : Vector Word 16) (q : Quad) : Quad := (List.finRange 48).foldl (md4Step M) q

/-- `md4_compress(H, B)` (R188). -/
def md4Compress (h : AlgoState) (B : Vector Byte 64) : AlgoState :=
  addQuad h (md4Steps (bytesToWords 16 .littleEndian B) (quadOf h))

/-- The form without register movement (R189): on registers A, B, C, D, steps 4g, 4g+1, 4g+2 and 4g+3 update
A, D, C and B in turn. -/
def md4StepInPlace (M : Vector Word 16) (q : Quad) (i : Fin 48) : Quad :=
  if i.val % 4 = 0 then { q with a := md4Value M i q.a q.b q.c q.d }
  else if i.val % 4 = 1 then { q with d := md4Value M i q.d q.a q.b q.c }
  else if i.val % 4 = 2 then { q with c := md4Value M i q.c q.d q.a q.b }
  else { q with b := md4Value M i q.b q.c q.d q.a }

/-- One step of the engine, with the range check of STEP (R41, 60_exceptions.md R328). -/
def md4MicroStep (μ : Micro) : Except Fault Micro :=
  if h : μ.step < 48 then .ok (setQuad μ (md4Step μ.m (microQuad μ) ⟨μ.step, h⟩))
  else .error .engineInvariant

/-- The MD4 compression stepped through the micro-state (R41, R43). -/
def md4Engine (μ : Micro) (h : AlgoState) (B : Vector Byte 64) : Except Fault AlgoState :=
  match runSteps md4MicroStep 48 (loadQuad μ h (bytesToWords 16 .littleEndian B)) with
  | .ok μ' => .ok (addQuad h (microQuad μ'))
  | .error r => .error r

/-- `md4(m)` (R191). -/
def md4 (m : List Byte) : Vector Byte 16 :=
  let h := (blocksOf 64 (padMd .littleEndian m)).foldl md4Compress (md4Init AlgoState.zero)
  wordsToBytes 4 .littleEndian #v[h.h0, h.h1, h.h2, h.h3]

end Sys2Proof.Machine
end

