-- ==== Sys2Proof/Machine/Md5.lean ====
section
/-! DEFINITION. The MD5 engine (43_md5.md R210-R221), with the register update of 90_conflicts.md C2.
`md5Compress` is the rules' function; `md5Engine` is the same compression stepped through the micro-state,
with the range check of STEP (10_state.md R41, R43). -/

namespace Sys2Proof.Machine

/-- INIT md5 (R210): `H0..H3 <- IV_MD ; H4 <- 0`. -/
def md5Init (h : AlgoState) : AlgoState :=
  { h with h0 := ivMd[0], h1 := ivMd[1], h2 := ivMd[2], h3 := ivMd[3], h4 := 0 }

/-- The round function of step i (R212): round `i div 16 + 1`. -/
def md5RoundFn (i : Fin 64) : Word → Word → Word → Word :=
  if i.val / 16 = 0 then roundF
  else if i.val / 16 = 1 then roundG5
  else if i.val / 16 = 2 then roundParity
  else roundI

/-- The message word of step i, `M[MD5_INDEX[i]]`. -/
def md5Word (M : Vector Word 16) (i : Fin 64) : Word := M[md5Index[i].toNat]

/-- The value computed by step i (R217):
`b + rotl(a + f_i(b, c, d) + M[MD5_INDEX[i]] + MD5_K[i], MD5_SHIFT[i])`. -/
def md5Value (M : Vector Word 16) (i : Fin 64) (a b c d : Word) : Word :=
  b + rotl (a + md5RoundFn i b c d + md5Word M i + md5K[i]) md5Shift[i].toNat

/-- `md5_step(i, (a, b, c, d))` (R217): new (a, b, c, d) = (d, t, b, c). -/
def md5Step (M : Vector Word 16) (q : Quad) (i : Fin 64) : Quad :=
  ⟨q.d, md5Value M i q.a q.b q.c q.d, q.b, q.c⟩

/-- The 64 steps (R218). -/
def md5Steps (M : Vector Word 16) (q : Quad) : Quad := (List.finRange 64).foldl (md5Step M) q

/-- `md5_compress(H, B)` (R218). -/
def md5Compress (h : AlgoState) (B : Vector Byte 64) : AlgoState :=
  addQuad h (md5Steps (bytesToWords 16 .littleEndian B) (quadOf h))

/-- The form without register movement (R219): steps 4g, 4g+1, 4g+2 and 4g+3 update A, D, C and B in turn. -/
def md5StepInPlace (M : Vector Word 16) (q : Quad) (i : Fin 64) : Quad :=
  if i.val % 4 = 0 then { q with a := md5Value M i q.a q.b q.c q.d }
  else if i.val % 4 = 1 then { q with d := md5Value M i q.d q.a q.b q.c }
  else if i.val % 4 = 2 then { q with c := md5Value M i q.c q.d q.a q.b }
  else { q with b := md5Value M i q.b q.c q.d q.a }

/-- One step of the engine, with the range check of STEP (R41, 60_exceptions.md R328). -/
def md5MicroStep (μ : Micro) : Except Fault Micro :=
  if h : μ.step < 64 then .ok (setQuad μ (md5Step μ.m (microQuad μ) ⟨μ.step, h⟩))
  else .error .engineInvariant

/-- The MD5 compression stepped through the micro-state (R41, R43). -/
def md5Engine (μ : Micro) (h : AlgoState) (B : Vector Byte 64) : Except Fault AlgoState :=
  match runSteps md5MicroStep 64 (loadQuad μ h (bytesToWords 16 .littleEndian B)) with
  | .ok μ' => .ok (addQuad h (microQuad μ'))
  | .error r => .error r

/-- `md5(m)` (R221). -/
def md5 (m : List Byte) : Vector Byte 16 :=
  let h := (blocksOf 64 (padMd .littleEndian m)).foldl md5Compress (md5Init AlgoState.zero)
  wordsToBytes 4 .littleEndian #v[h.h0, h.h1, h.h2, h.h3]

end Sys2Proof.Machine
end

