-- ==== Sys2Proof/Machine/Sha1.lean ====
section
/-! DEFINITION. The SHA-1 engine (44_sha1.md R240-R248). `sha1Compress` is the rules' function; `sha1Engine` is
the same compression stepped through the micro-state, with the range check of STEP (10_state.md R41, R43). -/

namespace Sys2Proof.Machine

/-- INIT sha1 (R241): `H0..H4 <- IV_SHA1`. -/
def sha1Init (h : AlgoState) : AlgoState :=
  { h with h0 := ivSha1[0], h1 := ivSha1[1], h2 := ivSha1[2], h3 := ivSha1[3], h4 := ivSha1[4] }

/-- One word of the expansion (R242): W[16 + k] from W[13 + k], W[8 + k], W[2 + k] and W[k]. -/
def sha1Expand (W : Vector Word 80) (k : Fin 64) : Vector Word 80 :=
  W.set (16 + k.val) (rotl (W[13 + k.val] ^^^ W[8 + k.val] ^^^ W[2 + k.val] ^^^ W[k.val]) 1)

/-- The first 16 words of the schedule, big-endian (R242); the later ones not yet computed. -/
def sha1Load (B : Vector Byte 64) : Vector Word 80 :=
  bytesToWords 16 .bigEndian B ++ (Vector.replicate 64 0 : Vector Word 64)

/-- The schedule W[0..80] (R242), "generated in increasing i". -/
def sha1Schedule (B : Vector Byte 64) : Vector Word 80 := (List.finRange 64).foldl sha1Expand (sha1Load B)

/-- The rolling window Q (R243) one step on: "Q shifts down by one and the new word enters Q[15]". -/
def sha1WindowShift (Q : Vector Word 16) (w : Word) : Vector Word 16 :=
  Vector.ofFn fun j => if h : j.val < 15 then Q[j.val + 1] else w

/-- The word the window feeds to the next step (R243): `rotl(Q[13] ^ Q[8] ^ Q[2] ^ Q[0], 1)`. -/
def sha1WindowWord (Q : Vector Word 16) : Word := rotl (Q[13] ^^^ Q[8] ^^^ Q[2] ^^^ Q[0]) 1

/-- The window after n words beyond the block's own 16 (R243). -/
def sha1WindowAfter (B : Vector Byte 64) : Nat → Vector Word 16
  | 0 => bytesToWords 16 .bigEndian B
  | n + 1 => sha1WindowShift (sha1WindowAfter B n) (sha1WindowWord (sha1WindowAfter B n))

/-- The round function of step i (R244): four rounds of 20. -/
def sha1RoundFn (i : Fin 80) : Word → Word → Word → Word :=
  if i.val / 20 = 0 then roundF
  else if i.val / 20 = 1 then roundParity
  else if i.val / 20 = 2 then roundMajority
  else roundParity

/-- K_i (R244). -/
def sha1Constant (i : Fin 80) : Word := sha1K[i.val / 20]

/-- `sha1_step(i, (a, b, c, d, e))` (R245): new (a, b, c, d, e) = (temp, a, rotl(b, 30), c, d). -/
def sha1Step (W : Vector Word 80) (q : Quint) (i : Fin 80) : Quint :=
  ⟨rotl q.a 5 + sha1RoundFn i q.b q.c q.d + q.e + sha1Constant i + W[i], q.a, rotl q.b 30, q.c, q.d⟩

/-- The 80 steps (R246). -/
def sha1Steps (W : Vector Word 80) (q : Quint) : Quint := (List.finRange 80).foldl (sha1Step W) q

/-- `sha1_compress(H, B)` (R246). -/
def sha1Compress (h : AlgoState) (B : Vector Byte 64) : AlgoState :=
  addQuint h (sha1Steps (sha1Schedule B) (quintOf h))

/-- One step of the engine, with the range check of STEP (R41, 60_exceptions.md R328). -/
def sha1MicroStep (μ : Micro) : Except Fault Micro :=
  if h : μ.step < 80 then .ok (setQuint μ (sha1Step μ.w (microQuint μ) ⟨μ.step, h⟩))
  else .error .engineInvariant

/-- The SHA-1 compression stepped through the micro-state (R41, R43). -/
def sha1Engine (μ : Micro) (h : AlgoState) (B : Vector Byte 64) : Except Fault AlgoState :=
  match runSteps sha1MicroStep 80 (loadQuint μ h (sha1Schedule B)) with
  | .ok μ' => .ok (addQuint h (microQuint μ'))
  | .error r => .error r

/-- `sha1(m)` (R248). -/
def sha1 (m : List Byte) : Vector Byte 20 :=
  let h := (blocksOf 64 (padMd .bigEndian m)).foldl sha1Compress (sha1Init AlgoState.zero)
  wordsToBytes 5 .bigEndian #v[h.h0, h.h1, h.h2, h.h3, h.h4]

end Sys2Proof.Machine
end

