-- ==== Sys2Proof/Machine/Ops.lean ====
section
/-! DEFINITION. The named operations over the state: recording an error and clearing it (60_exceptions.md R321,
R329), the gates a command passes (R324), starting, folding and finishing a message (45_commands.md
R275-R277), reset (10_state.md R44), and the host's bus accesses (20_memory.md R61-R63, 45_commands.md R270,
R271). -/

namespace Sys2Proof.Machine

/-! ### Errors -/

/-- `raise E` (R321): ERR <- 1 and ERRCODE <- code(E) if ERR was 0; with ERR = 1 "nothing changes: ERRCODE
keeps the first error". The command is abandoned: the caller does nothing after it. -/
def raiseError (e : CommandError) (s : State) : State :=
  if s.err then s else { s with err := true, errCode := errorCode e }

/-- `ERR <- 0 ; ERRCODE <- 0 ; OVR <- 0` (R278): "the nearest thing to a return" (R329). -/
def clearErrors (s : State) : State := { s with err := false, errCode := 0, ovr := false }

/-- The error gate (R273): while ERR = 1, INIT, BLOCK and FINAL "write nothing, raise nothing". -/
def throughErrorGate (s : State) (run : Outcome) : Outcome := if s.err then .next s else run

/-- The phase checks of BLOCK and FINAL (R276, R277): NOT_INIT in IDLE, ALREADY_FINAL in DONE, `run` in
ABSORB. PHASE = 3 is ENGINE_INVARIANT (U4). -/
def inAbsorb (s : State) (run : Outcome) : Outcome :=
  if s.phase = phaseIdle then .next (raiseError .notInit s)
  else if s.phase = phaseDone then .next (raiseError .alreadyFinal s)
  else if s.phase = phaseAbsorb then run
  else .fault .engineInvariant

/-! ### Unspecified values -/

/-- How many word indexes `unspecifiedMicro` uses. -/
def microDraws : Nat := 103

/-- A micro-state of free values (R43), drawn from index n. Log entry 5. -/
def unspecifiedMicro (n : Nat) : Micro where
  a := Config.draw32 n
  b := Config.draw32 (n + 1)
  c := Config.draw32 (n + 2)
  d := Config.draw32 (n + 3)
  e := Config.draw32 (n + 4)
  w := Vector.ofFn fun i => Config.draw32 (n + 5 + i.val)
  m := Vector.ofFn fun i => Config.draw32 (n + 85 + i.val)
  t := Config.draw8 n
  r := (Config.draw32 (n + 101)).toNat
  step := (Config.draw32 (n + 102)).toNat

/-- How many indexes `unspecifiedAlgo` uses. -/
def algoDraws : Nat := 65

/-- An algorithm state of free values (R44), drawn from index n. Log entry 4. -/
def unspecifiedAlgo (n : Nat) : AlgoState where
  h0 := Config.draw32 n
  h1 := Config.draw32 (n + 1)
  h2 := Config.draw32 (n + 2)
  h3 := Config.draw32 (n + 3)
  h4 := Config.draw32 (n + 4)
  x := Vector.ofFn fun i => Config.draw8 (n + i.val)
  c := Vector.ofFn fun i => Config.draw8 (n + 48 + i.val)
  l := Config.draw8 (n + 64)

/-- The micro-state after a command that ran a compression: "unspecified and never observed" (R43). -/
def scrambleMicro (s : State) : State :=
  { s with micro := unspecifiedMicro s.draws, draws := s.draws + microDraws }

/-! ### Messages -/

/-- The common end of a successful INIT (R275): `LEN <- 0 ; DIG <- 0^20 ; ALG <- a ; PHASE <- ABSORB`. -/
def startMessage (code : BitVec 3) (algo : AlgoState) (s : State) : State :=
  { s with algo := algo, len := 0, dig := Vector.replicate 20 0, alg := code, phase := phaseAbsorb }

/-- The algorithm state INIT writes (R275), for the four implemented codes. -/
def initialAlgo (code : BitVec 3) (h : AlgoState) : AlgoState :=
  if code = algMd2 then md2Init h
  else if code = algMd4 then md4Init h
  else if code = algMd5 then md5Init h
  else sha1Init h

/-- `do_init(a)` (R275), which leaves the other algorithms' state as it was (R46). -/
def doInit (code : BitVec 3) (s : State) : State :=
  if 4 ≤ code.toNat then raiseError .unimplAlg s else startMessage code (initialAlgo code s.algo) s

/-- The fold of one full block by the engine ALG selects (R276). An ALG code without an engine is a
"round-dispatch index falling outside the valid range" (R328). -/
def absorbBlock (code : BitVec 3) (μ : Micro) (blk : Vector Byte 64) (h : AlgoState) : Except Fault AlgoState :=
  if code = algMd2 then md2EngineAbsorb μ h (firstSixteen blk)
  else if code = algMd4 then md4Engine μ h blk
  else if code = algMd5 then md5Engine μ h blk
  else if code = algSha1 then sha1Engine μ h blk
  else .error .engineInvariant

/-- The state after the fold of BLOCK (R276): `LEN <- (LEN + bs) mod 2^64`. -/
def afterBlock (s : State) (h : AlgoState) : State :=
  scrambleMicro { s with algo := h, len := s.len + blockLength s.alg }

/-- `do_block` after its phase checks (R276). -/
def foldBlock (s : State) : Outcome :=
  match absorbBlock s.alg s.micro s.blk s.algo with
  | .ok h => .next (afterBlock s h)
  | .error r => .fault r

/-- The tail padded and folded by the engine ALG selects, and the digest (R277). `len` is "LEN after the
addition". -/
def absorbTail (code : BitVec 3) (μ : Micro) (tail : List Byte) (len : Length) (h : AlgoState) :
    Except Fault AlgoState :=
  if code = algMd2 then md2EngineFinal μ h tail
  else if code = algMd4 then foldBlocks (md4Engine μ) (blocksOf 64 (padTailMd .littleEndian tail len)) h
  else if code = algMd5 then foldBlocks (md5Engine μ) (blocksOf 64 (padTailMd .littleEndian tail len)) h
  else if code = algSha1 then foldBlocks (sha1Engine μ) (blocksOf 64 (padTailMd .bigEndian tail len)) h
  else .error .engineInvariant

/-- What FINAL writes to DIG (R277): the S digest bytes in storage order, then zeros (10_state.md R39). -/
def digestOf (code : BitVec 3) (h : AlgoState) : Vector Byte 20 :=
  if code = algMd2 then digestMd2 h
  else if code = algSha1 then digestBe h
  else digestLe h

/-- The state after the last fold of FINAL n (R277): LEN, DIG, `PHASE <- DONE`. -/
def afterFinal (s : State) (len : Length) (h : AlgoState) : State :=
  scrambleMicro { s with algo := h, len := len, dig := digestOf s.alg h, phase := phaseDone }

/-- `do_final(n)` after its phase checks (R277): the BAD_TAIL check, LEN, the tail, the digest. -/
def finishMessage (tail : BitVec 6) (s : State) : Outcome :=
  if s.alg = algMd2 ∧ 16 ≤ tailCount tail then .next (raiseError .badTail s)
  else
    match absorbTail s.alg s.micro (tailBytes tail s) (s.len + tailLength tail) s.algo with
    | .ok h => .next (afterFinal s (s.len + tailLength tail) h)
    | .error r => .fault r

/-! ### Reset -/

/-- Reset (R44, 70_reset_and_hazards.md R350, R351), for the reset input and for SRST: every host-visible
element takes its reset value; PEND, the algorithm state and the micro-state are unspecified, so free
values. What lies outside the block (the inputs to come, what the host has read and found) stays. -/
def resetBlock (s : State) : State :=
  { State.reset with
    pend := Config.draw32 s.draws
    algo := unspecifiedAlgo (s.draws + 1)
    micro := unspecifiedMicro (s.draws + 1 + algoDraws)
    inputs := s.inputs
    reads := s.reads
    checks := s.checks
    draws := s.draws + 1 + algoDraws + microDraws }

/-! ### The register window -/

/-- The registers of the window (10_state.md R22). -/
inductive WindowReg where
  | id
  | cmd
  | status
  | caps
  | lenLo
  | lenHi
  | blk (k : Fin 16)
  | dig (k : Fin 5)
  | reserved
  deriving DecidableEq, Repr

/-- The register at an offset (R22); `none` at an offset that is not a multiple of 4 (20_memory.md R62). -/
def windowReg (off : BitVec 8) : Option WindowReg :=
  let o := off.toNat
  if o % 4 ≠ 0 then none
  else if o = 0x00 then some .id
  else if o = 0x04 then some .cmd
  else if o = 0x08 then some .status
  else if o = 0x0C then some .caps
  else if o = 0x10 then some .lenLo
  else if o = 0x14 then some .lenHi
  else if h : 0x40 ≤ o ∧ o < 0x80 then some (.blk ⟨(o - 0x40) / 4, by omega⟩)
  else if h : 0x80 ≤ o ∧ o < 0x94 then some (.dig ⟨(o - 0x80) / 4, by omega⟩)
  else some .reserved

/-- The register an access reaches; `none` if the access is not admitted (R62): narrower than 32 bits, or at
an offset that is not a multiple of 4. -/
def admitted (width : AccessWidth) (off : BitVec 8) : Option WindowReg :=
  if width = .bits32 then windowReg off else none

/-- Four bytes of a byte array as the bus word k (R63): little-endian lanes. -/
def laneWord {n : Nat} (B : Vector Byte n) (k : Nat) (h : 4 * k + 3 < n) : Word :=
  le32 B[4 * k] B[4 * k + 1] B[4 * k + 2] B[4 * k + 3]

/-- `BLK[4k + j] <- v[8j+7 : 8j]` for j in 0..4 (R63, R271). -/
def setLane (B : Vector Byte 64) (k : Fin 16) (v : Word) : Vector Byte 64 :=
  (((B.set (4 * k.val) (byteOf v 0)).set (4 * k.val + 1) (byteOf v 1)).set
    (4 * k.val + 2) (byteOf v 2)).set (4 * k.val + 3) (byteOf v 3)

/-- Whether a read of the register returns a draw (R270): DIG, LEN_LO and LEN_HI while BUSY = 1. -/
def readIsDraw (r : WindowReg) (s : State) : Bool :=
  match r with
  | .lenLo => s.busy
  | .lenHi => s.busy
  | .dig _ => s.busy
  | _ => false

/-- The value `BusRead` returns (R270). -/
def readValue (r : WindowReg) (s : State) : Word :=
  match r with
  | .id => idWord
  | .cmd => 0
  | .status => statusWord s
  | .caps => capsWord
  | .lenLo => if s.busy then Config.draw32 s.draws else s.len.extractLsb' 0 32
  | .lenHi => if s.busy then Config.draw32 s.draws else s.len.extractLsb' 32 32
  | .blk k => laneWord s.blk k.val (by omega)
  | .dig k => if s.busy then Config.draw32 s.draws else laneWord s.dig k.val (by omega)
  | .reserved => 0

/-- `BusRead` (R270): it changes no state of the block; the host gets the value, and a draw is used up. -/
def busRead (r : WindowReg) (s : State) : State :=
  { s with reads := readValue r s :: s.reads, draws := if readIsDraw r s then s.draws + 1 else s.draws }

/-- `BusWrite` (R271). -/
def busWrite (r : WindowReg) (v : Word) (s : State) : State :=
  match r with
  | .cmd => if s.busy then { s with ovr := true } else { s with pend := v, busy := true }
  | .blk k => if s.busy then { s with ovr := true } else { s with blk := setLane s.blk k v }
  | _ => s

/-- Whether the outside can make this move: a reset always, an access only if it is admitted (R62). -/
def hostOpEnabled (op : HostOp) : Bool :=
  match op with
  | .read width off => (admitted width off).isSome
  | .write width off _ => (admitted width off).isSome
  | .wait => true
  | .checkErr => true
  | .reset => true

/-- What `checkerr` makes of the STATUS word it read (30_encoding.md R100): "error if `s[3] = 1`, code
`s[7:4]`". -/
def errorIn (status : Word) : Option (BitVec 4) :=
  if status.getLsbD 3 then some (status.extractLsb' 4 4) else none

/-- One move of the outside. A non-admitted access has no step: the host is stuck (R62, U5). `wait` and
`checkerr` read STATUS; whether `wait` goes round again is `inputsAfter`. -/
def hostStep (op : HostOp) (s : State) : Outcome :=
  match op with
  | .read width off =>
    match admitted width off with
    | some r => .next (busRead r s)
    | none => .fault .hostStuck
  | .write width off v =>
    match admitted width off with
    | some r => .next (busWrite r v s)
    | none => .fault .hostStuck
  | .wait => .next (busRead .status s)
  | .checkErr => .next { busRead .status s with checks := errorIn (readValue .status s) :: s.checks }
  | .reset => .next (resetBlock s)

/-- The window offset of a host address (R61); `none` outside `BASE .. BASE + 256`, which "is not the block's
concern". -/
def offsetOf (addr : Nat) : Option (BitVec 8) :=
  if Config.base ≤ addr ∧ addr < Config.base + 256 then some (BitVec.ofNat 8 (addr - Config.base)) else none

/-- `MemRead(addr, 4)` (R61), as the access it is at the block. -/
def memRead (addr : Nat) : Option HostOp := (offsetOf addr).map fun off => .read .bits32 off

/-- `MemWrite(addr, 4, v)` (R61), as the access it is at the block. -/
def memWrite (addr : Nat) (v : Word) : Option HostOp := (offsetOf addr).map fun off => .write .bits32 off v

end Sys2Proof.Machine
end

