-- ==== Sys2Proof/Machine/Control.lean ====
section
/-! DEFINITION. NOP, CLRERR and SRST: the commands that execute whatever ERR is (45_commands.md R273, R274,
R278, R279). -/

namespace Sys2Proof.Machine

/-- NOP (R274): "State written: none". -/
def execNop (s : State) : Outcome := .next s

/-- CLRERR (R278): `ERR <- 0 ; ERRCODE <- 0 ; OVR <- 0`. -/
def execClrerr (s : State) : Outcome := .next (clearErrors s)

/-- SRST (R279): "every state element <- its reset value of 10_state.md rule R44". -/
def execSrst (s : State) : Outcome := .next (resetBlock s)

end Sys2Proof.Machine
end

