-- ==== Sys2Proof/Machine/Init.lean ====
section
/-! DEFINITION. INIT, one definition per algorithm code (45_commands.md R275, 30_encoding.md R93, R97), behind
the error gate (R273). -/

namespace Sys2Proof.Machine

/-- INIT md2 (R275, 41_md2.md R153). -/
def execInitMd2 (s : State) : Outcome := throughErrorGate s (.next (doInit 0 s))

/-- INIT md4 (R275, 42_md4.md R181). -/
def execInitMd4 (s : State) : Outcome := throughErrorGate s (.next (doInit 1 s))

/-- INIT md5 (R275, 43_md5.md R210). -/
def execInitMd5 (s : State) : Outcome := throughErrorGate s (.next (doInit 2 s))

/-- INIT sha1 (R275, 44_sha1.md R241). -/
def execInitSha1 (s : State) : Outcome := throughErrorGate s (.next (doInit 3 s))

/-- INIT sha224: raises UNIMPL_ALG (R275, R97). -/
def execInitSha224 (s : State) : Outcome := throughErrorGate s (.next (doInit 4 s))

/-- INIT sha256: raises UNIMPL_ALG (R275, R97). -/
def execInitSha256 (s : State) : Outcome := throughErrorGate s (.next (doInit 5 s))

/-- INIT sha384: raises UNIMPL_ALG (R275, R97). -/
def execInitSha384 (s : State) : Outcome := throughErrorGate s (.next (doInit 6 s))

/-- INIT sha512: raises UNIMPL_ALG (R275, R97). -/
def execInitSha512 (s : State) : Outcome := throughErrorGate s (.next (doInit 7 s))

end Sys2Proof.Machine
end

