-- ==== Sys2Proof/Machine/Message.lean ====
section
/-! DEFINITION. BLOCK and FINAL (45_commands.md R276, R277), behind the error gate (R273). -/

namespace Sys2Proof.Machine

/-- BLOCK (R276): folds one full block of the message. -/
def execBlock (s : State) : Outcome := throughErrorGate s (inAbsorb s (foldBlock s))

/-- FINAL n (R277): pads the tail BLK[0..n], folds it and writes the digest. -/
def execFinal (tail : BitVec 6) (s : State) : Outcome :=
  throughErrorGate s (inAbsorb s (finishMessage tail s))

end Sys2Proof.Machine
end

