-- ==== Sys2Proof/Machine/Dispatch.lean ====
section
/-! DEFINITION. One arm per command (45_commands.md R273): decoding and BUSY are the engine step's
(Machine/Engine.lean), the error gate is each meaning's own. -/

namespace Sys2Proof.Machine

def exec (i : Instr) (s : State) : Host.Outcome State Fault Refusal :=
  match i with
  | .nop => Sys2Proof.Machine.execNop s
  | .initMd2 => Sys2Proof.Machine.execInitMd2 s
  | .initMd4 => Sys2Proof.Machine.execInitMd4 s
  | .initMd5 => Sys2Proof.Machine.execInitMd5 s
  | .initSha1 => Sys2Proof.Machine.execInitSha1 s
  | .initSha224 => Sys2Proof.Machine.execInitSha224 s
  | .initSha256 => Sys2Proof.Machine.execInitSha256 s
  | .initSha384 => Sys2Proof.Machine.execInitSha384 s
  | .initSha512 => Sys2Proof.Machine.execInitSha512 s
  | .block => Sys2Proof.Machine.execBlock s
  | .final tail => Sys2Proof.Machine.execFinal tail s
  | .clrerr => Sys2Proof.Machine.execClrerr s
  | .srst => Sys2Proof.Machine.execSrst s

end Sys2Proof.Machine
end

