-- ==== Sys2Proof/Machine/Engine.lean ====
section
/-! DEFINITION. The engine step (45_commands.md R272, R273), and which agent moves next (10_state.md R20). -/

namespace Sys2Proof.Machine

/-- `BUSY <- 0`, "in the same step, after the command's effects" (R272). -/
def clearBusy (s : State) : State := { s with busy := false }

/-- BUSY cleared after a command that left a next state. A fault leaves none. -/
def retire (o : Outcome) : Outcome :=
  match o with
  | .next s => .next (clearBusy s)
  | .fault r => .fault r
  | .refused r => .refused r

/-- `execute(w)` (R273): an Illegal word raises ILLEGAL_CMD; any other is its command's meaning. -/
def executeWord (w : Word) (s : State) : Outcome :=
  match decode w with
  | .error _ => .next (raiseError .illegalCmd s)
  | .ok i => exec i s

/-- `EngineStep` (R272): `execute(PEND) ; BUSY <- 0`, one atomic step. -/
def engineStep (s : State) : Outcome := retire (executeWord s.pend s)

/-- The first reset in a list of inputs, and what comes after it. -/
def firstReset : List Input → Option (Input × List Input)
  | [] => none
  | i :: rest => if i.op = .reset then some (i, rest) else firstReset rest

/-- The next input that has a step, and the inputs after it. A host stuck at a non-admitted access (R62) stays
there and makes no later access; the platform's reset can still come. `none`: nothing from outside can move. -/
def nextInput : List Input → Option (Input × List Input)
  | [] => none
  | i :: rest =>
    if hostOpEnabled i.op then some (i, rest)
    else (firstReset rest).map fun p => (p.1, i :: p.2)

/-- Whether the engine moves now: a command is pending, and the next input comes after it, or there is none
(fairness: "if BUSY = 1, the engine step eventually happens", R272). -/
def engineMoves (s : State) : Bool :=
  s.busy &&
    match nextInput s.inputs with
    | none => true
    | some p => p.1.before == 0

/-- What is still to arrive once the next input has taken its step. `wait` is the loop of 30_encoding.md R100:
while the STATUS it reads has bit 0 = 1 it goes to its own read again, one poll fewer to come before the pending
command; any other input is gone. -/
def inputsAfter (i : Input) (rest : List Input) (s : State) : List Input :=
  if i.op = .wait ∧ (readValue .status s).getLsbD 0 = true then ⟨i.before - 1, .wait⟩ :: rest else rest

/-- The outside's move: the next input. With nothing left to arrive nothing happens, "All state is held
indefinitely" (R336); with the host stuck and no reset to come, the machine is stuck (U5). -/
def inputStep (s : State) : Outcome :=
  match nextInput s.inputs with
  | some p => hostStep p.1.op { s with inputs := inputsAfter p.1 p.2 s }
  | none => if s.inputs.isEmpty then .next s else .fault .hostStuck

/-- The state with a command word pending and nothing arriving before it executes. -/
def withPending (s : State) (w : Word) : State := { s with pend := w, busy := true, inputs := [] }

end Sys2Proof.Machine
end

