-- ==== Sys2Proof/Machine/Step.lean ====
section
/-! DEFINITION. One step of the machine (10_state.md R20): the engine's or the outside's, as `State.inputs`
orders them. -/

namespace Sys2Proof.Machine

/-- One step. A state whose fields hold values "never produced" is ENGINE_INVARIANT (U4, U10). -/
def step (s : State) : Host.Outcome State Fault Refusal :=
  if fieldsInRange s then
    if engineMoves s then engineStep s else inputStep s
  else .fault .engineInvariant

/-- `s` with an instruction of the opcode table where `step` takes its next one: PEND, with BUSY = 1 and no
input arriving first. A number that does not fit a command word leaves `s` as it is. -/
def State.withFetchWord (s : State) (nbits w : Nat) : State :=
  match tableWord nbits w with
  | some word => withPending s word
  | none => s

end Sys2Proof.Machine
end

