-- ==== Sys2Proof/Machine/HostProgram.lean ====
section
/-! DEFINITION. Host programs (30_encoding.md R99, R100) as what they put to the block, line after line, and
the program `hash(A, m)` (45_commands.md R283). A host program lies outside the block. It says nothing of the
engine's steps: a state runs it when the operations of `State.inputs` are these, with any `before` on each
(10_state.md R20). -/

namespace Sys2Proof.Machine

/-- The offset of CMD (R99). -/
def offCmd : BitVec 8 := 0x04

/-- The offset of BLKk (R99): `0x40 + 4k`. -/
def offBlk (k : Nat) : BitVec 8 := BitVec.ofNat 8 (0x40 + 4 * k)

/-- The offset of DIGk (R99): `0x80 + 4k`. -/
def offDig (k : Nat) : BitVec 8 := BitVec.ofNat 8 (0x80 + 4 * k)

/-- `st.w OFF, VAL` (R99). Whether it comes before or after a pending command is not the line's: log entry 2. -/
def storeWord (off : BitVec 8) (v : Word) : HostOp := .write .bits32 off v

/-- `ld.w OFF -> r` (R99). Its order against a pending command is as for `storeWord`. -/
def loadWord (off : BitVec 8) : HostOp := .read .bits32 off

/-- `cmd X` (R100): `st.w CMD, word(X)`. -/
def cmdOps (i : Instr) : List HostOp := [storeWord offCmd (encode i)]

/-- `wait` (R100): `L: ld.w STATUS -> s`, and to L again if `s[0] = 1`. The loop is the step's
(`inputsAfter`), on the value read. How often it polls before a pending command is not the program's: log entries
2 and 12. -/
def waitOps : List HostOp := [.wait]

/-- `run X` (R100): `cmd X ; wait`. -/
def runOps (i : Instr) : List HostOp := cmdOps i ++ waitOps

/-- Word k of a byte sequence for the bus, "with bytes at index >= n taken as 0" (R100). -/
def busWordAt (b : List Byte) (k : Nat) : Word :=
  le32 (b.getD (4 * k) 0) (b.getD (4 * k + 1) 0) (b.getD (4 * k + 2) 0) (b.getD (4 * k + 3) 0)

/-- `loadblk b[0..n]` (R100): the ceil(n/4) words that hold the bytes. -/
def loadBlkOps (b : List Byte) : List HostOp :=
  (List.range ((b.length + 3) / 4)).map fun k => storeWord (offBlk k) (busWordAt b k)

/-- `readdig` (R100): DIG0-DIG4. -/
def readDigOps : List HostOp := (List.range 5).map fun k => loadWord (offDig k)

/-- `checkerr` (R100): one read of STATUS, whose bit 3 the host tests and whose code it takes (`errorIn`). -/
def checkErrOps : List HostOp := [.checkErr]

/-- The implemented algorithms (00_scope.md R2). -/
inductive HashAlg where
  | md2
  | md4
  | md5
  | sha1
  deriving DecidableEq, Repr

/-- The algorithm's code (30_encoding.md R93). -/
def hashCode : HashAlg → BitVec 3
  | .md2 => algMd2
  | .md4 => algMd4
  | .md5 => algMd5
  | .sha1 => algSha1

/-- The command `init A`. -/
def hashInit : HashAlg → Instr
  | .md2 => .initMd2
  | .md4 => .initMd4
  | .md5 => .initMd5
  | .sha1 => .initSha1

/-- The block size `bs` in bytes (00_scope.md R2). -/
def hashBlockBytes : HashAlg → Nat
  | .md2 => 16
  | .md4 => 64
  | .md5 => 64
  | .sha1 => 64

/-- lore's whole-message function A(m), as bytes: S = 16, or 20 for SHA-1 (R161, R191, R221, R248). -/
def hashBytes (A : HashAlg) (m : List Byte) : List Byte :=
  match A with
  | .md2 => (md2 m).toList
  | .md4 => (md4 m).toList
  | .md5 => (md5 m).toList
  | .sha1 => (sha1 m).toList

/-- The full blocks of a message, each loaded and folded: `loadblk ... ; run block` (R283). -/
def blockOps (bs : Nat) (m : List Byte) : List HostOp :=
  (List.range (m.length / bs)).flatMap fun j => loadBlkOps ((m.drop (bs * j)).take bs) ++ runOps .block

/-- The bytes after the last full block (R283). -/
def messageTail (bs : Nat) (m : List Byte) : List Byte := m.drop (bs * (m.length / bs))

/-- `hash(A, m)` (R283). -/
def hashOps (A : HashAlg) (m : List Byte) : List HostOp :=
  let bs := hashBlockBytes A
  let tail := messageTail bs m
  runOps (hashInit A) ++ blockOps bs m ++ loadBlkOps tail ++
    runOps (.final (BitVec.ofNat 6 tail.length)) ++ checkErrOps ++ readDigOps

/-- A line of a host program (R99, R100). -/
inductive ProgramLine where
  | store (off : BitVec 8) (v : Word)
  | load (off : BitVec 8)
  | cmd (c : CommandLine)
  | wait
  | run (c : CommandLine)
  | loadblk (b : List Byte)
  | readdig
  | checkerr
  | hash (A : HashAlg) (m : List Byte)
  deriving DecidableEq, Repr

/-- What a line puts to the block; `none` where the assembler refuses its command (R99). -/
def lineOps : ProgramLine → Option (List HostOp)
  | .store off v => some [storeWord off v]
  | .load off => some [loadWord off]
  | .cmd c => (assemble c).map cmdOps
  | .wait => some waitOps
  | .run c => (assemble c).map runOps
  | .loadblk b => if b.length ≤ 64 then some (loadBlkOps b) else none
  | .readdig => some readDigOps
  | .checkerr => some checkErrOps
  | .hash A m => some (hashOps A m)

/-- "The encoding of a host program is its list of transactions" (R99), with `wait` and `checkerr` for reads of
STATUS that the host acts on. -/
def programOps : List ProgramLine → Option (List HostOp)
  | [] => some []
  | line :: rest => (lineOps line).bind fun is => (programOps rest).map fun js => is ++ js

end Sys2Proof.Machine
end

