-- ==== Sys2Proof/Safety.lean ====
section
/-! DEFINITION. What statements about the machine are made in: the invariant of the reachable states, what
the host can tell apart, and what a command may leave changed. -/

namespace Sys2Proof.Machine

/-- What holds in every state a run from reset reaches. -/
structure StateInv (s : State) : Prop where
  /-- PHASE = 3, ERRCODE 6-15 and ALG 4-7 are "never produced" (10_state.md R30, R31, 60_exceptions.md R322). -/
  fields : fieldsInRange s = true
  /-- ERRCODE is a code exactly while ERR = 1 (R32, R321, R322). -/
  errorCode : s.err = true ↔ s.errCode ≠ 0
  /-- "In IDLE and ABSORB, DIG reads 0^20" (70_reset_and_hazards.md R356). -/
  digest : s.phase ≠ phaseDone → s.dig = Vector.replicate 20 0
  /-- In IDLE nothing has been counted and no algorithm selected (R30, R31, R44). -/
  idle : s.phase = phaseIdle → s.len = 0 ∧ s.alg = 0
  /-- "L equals C[15]" once INIT md2 has written both (R27). -/
  link : s.phase ≠ phaseIdle → s.alg = algMd2 → s.algo.l = s.algo.c[15]
  /-- H4 is 0 under MD4 and MD5 (R24). -/
  h4 : s.phase ≠ phaseIdle → s.alg = algMd4 ∨ s.alg = algMd5 → s.algo.h4 = 0
  /-- "For the 16-byte digests, DIG[16..20] is 0" (R39). -/
  short : s.alg ≠ algSha1 → ∀ i : Fin 20, 16 ≤ i.val → s.dig[i] = 0

/-- The fold of one full block as a function of its inputs (45_commands.md R276), for the four ALG codes that
have an engine. -/
def blockFold (code : BitVec 3) (blk : Vector Byte 64) (h : AlgoState) : AlgoState :=
  if code = algMd2 then md2Absorb h (firstSixteen blk)
  else if code = algMd4 then md4Compress h blk
  else if code = algMd5 then md5Compress h blk
  else sha1Compress h blk

/-- The folds of FINAL as a function of their inputs (R277), for the four ALG codes that have an engine. -/
def tailFold (code : BitVec 3) (tail : List Byte) (len : Length) (h : AlgoState) : AlgoState :=
  if code = algMd2 then md2Final h tail
  else if code = algMd4 then (blocksOf 64 (padTailMd .littleEndian tail len)).foldl md4Compress h
  else if code = algMd5 then (blocksOf 64 (padTailMd .littleEndian tail len)).foldl md5Compress h
  else (blocksOf 64 (padTailMd .bigEndian tail len)).foldl sha1Compress h

/-- The parts of the algorithm state that the algorithm of `alg` uses agree (R23-R26, R46). -/
def SameUsedAlgo (alg : BitVec 3) (h k : AlgoState) : Prop :=
  (alg = algMd2 → h.x = k.x ∧ h.c = k.c ∧ h.l = k.l) ∧
  (alg = algMd4 ∨ alg = algMd5 ∨ alg = algSha1 → h.h0 = k.h0 ∧ h.h1 = k.h1 ∧ h.h2 = k.h2 ∧ h.h3 = k.h3) ∧
  (alg = algSha1 → h.h4 = k.h4)

/-- Two states the spec says no host can tell apart: they may differ in PEND while BUSY = 0 (R42), in the
micro-state (R43), and in algorithm state that no message in progress uses (R44, R46). -/
structure SameObserved (s t : State) : Prop where
  busy : s.busy = t.busy
  phase : s.phase = t.phase
  err : s.err = t.err
  errCode : s.errCode = t.errCode
  alg : s.alg = t.alg
  ovr : s.ovr = t.ovr
  len : s.len = t.len
  blk : s.blk = t.blk
  dig : s.dig = t.dig
  inputs : s.inputs = t.inputs
  reads : s.reads = t.reads
  checks : s.checks = t.checks
  draws : s.draws = t.draws
  pend : s.busy = true → s.pend = t.pend
  algo : s.phase = phaseAbsorb → SameUsedAlgo s.alg s.algo t.algo

/-- The outcomes of one step from two such states: both stop for the same reason, or both go on to states that
are such a pair again. -/
def SameOutcome (o p : Outcome) : Prop :=
  match o, p with
  | .next s, .next t => SameObserved s t
  | .fault q, .fault r => q = r
  | .refused q, .refused r => q = r
  | _, _ => False

/-- What lies outside the block and the command path is untouched: PEND, the inputs, what the host has read and
found. -/
def SameOutside (s t : State) : Prop :=
  t.pend = s.pend ∧ t.inputs = s.inputs ∧ t.reads = s.reads ∧ t.checks = s.checks

/-- X, C and L are unchanged: what MD4, MD5 and SHA-1 commands leave alone (R45, R46). -/
def SameMd2State (h k : AlgoState) : Prop := k.x = h.x ∧ k.c = h.c ∧ k.l = h.l

/-- H0-H4 are unchanged: what MD2 commands leave alone (R45, R46). -/
def SameChaining (h k : AlgoState) : Prop :=
  k.h0 = h.h0 ∧ k.h1 = h.h1 ∧ k.h2 = h.h2 ∧ k.h3 = h.h3 ∧ k.h4 = h.h4

/-- The commands the error gate drops while ERR = 1 (45_commands.md R273): INIT, BLOCK and FINAL. -/
def gatedByError : Instr → Bool
  | .nop => false
  | .initMd2 => true
  | .initMd4 => true
  | .initMd5 => true
  | .initSha1 => true
  | .initSha224 => true
  | .initSha256 => true
  | .initSha384 => true
  | .initSha512 => true
  | .block => true
  | .final _ => true
  | .clrerr => false
  | .srst => false

end Sys2Proof.Machine
end

