-- ==== Sys2Proof/Certificates/Slice0/Obligations.lean ====
section
/-! DEFINITION. The statements for the provers. Each docstring names the rules of spec/ it formalises. A clause
that names a micro-state or a count of draws only says that one exists: these are the model's (log entries 5
and 6), and no statement rests on their values. -/

open Sys2Proof Sys2Proof.Machine

/-! ### Encoding -/

/-- Decoding the word of a command gives the command back, with TAIL at every value (30_encoding.md, 1-3). -/
def Obligations.DecodeInvertsEncode : Prop :=
  ∀ i : Instr, decode (encode i) = .ok i

/-- R98: the legal words in full, and "Every other word is Illegal". -/
def Obligations.LegalWordsAreTheListedOnes : Prop :=
  ∀ (w : Word) (i : Instr), decode w = .ok i ↔
    w = match i with
      | .nop => 0x00000000
      | .initMd2 => 0x00000001
      | .initMd4 => 0x00000011
      | .initMd5 => 0x00000021
      | .initSha1 => 0x00000031
      | .initSha224 => 0x00000041
      | .initSha256 => 0x00000051
      | .initSha384 => 0x00000061
      | .initSha512 => 0x00000071
      | .block => 0x00000002
      | .final n => 0x00000003 + 0x100 * n.setWidth 32
      | .clrerr => 0x00000004
      | .srst => 0x00000005

/-- R96: a word is illegal when a reserved bit is 1, OP is 6-15, or a field its OP does not use is non-zero;
executing it raises ILLEGAL_CMD (code 1) and changes nothing else. -/
def Obligations.IllegalWordsRaiseIllegalCmd : Prop :=
  ∀ w : Word,
    ((∃ e, decode w = .error e) ↔
      w.extractLsb' 14 18 ≠ 0 ∨ w.extractLsb' 7 1 ≠ 0 ∨ 6 ≤ (w.extractLsb' 0 4).toNat ∨
        (w.extractLsb' 4 3 ≠ 0 ∧ w.extractLsb' 0 4 ≠ 1) ∨ (w.extractLsb' 8 6 ≠ 0 ∧ w.extractLsb' 0 4 ≠ 3)) ∧
    ∀ (s : State) (e : IllegalWord), decode w = .error e →
      executeWord w s = .next (if s.err then s else { s with err := true, errCode := 1 })

/-- A few words written out from the field table of R91, and what they stand for. -/
def Obligations.FieldPatternsDecode : Prop :=
  decode 0b00000000000000000000000000000000#32 = .ok .nop ∧
  decode 0b00000000000000000000000000110001#32 = .ok .initSha1 ∧
  decode 0b00000000000000000000000001110001#32 = .ok .initSha512 ∧
  decode 0b00000000000000000000000000000010#32 = .ok .block ∧
  decode 0b00000000000000000011111100000011#32 = .ok (.final 63) ∧
  decode 0b00000000000000000000000000000100#32 = .ok .clrerr ∧
  decode 0b00000000000000000000000000000101#32 = .ok .srst ∧
  decode 0b00000000000000000000000010000001#32 = .error .reservedBit

/-! ### The step -/

/-- A step with a command pending whose turn it is runs exactly that command, and clears BUSY after its effects
(45_commands.md, 2. The engine). -/
def Obligations.StepRunsPendingCommand : Prop :=
  ∀ (s : State) (i : Instr), fieldsInRange s = true → engineMoves s = true → decode s.pend = .ok i →
    step s = match exec i s with
      | .next t => .next { t with busy := false }
      | .fault r => .fault r
      | .refused r => .refused r

/-- A step with an illegal word pending whose turn it is records ILLEGAL_CMD, unless an error is recorded already,
and clears BUSY (45_commands.md, 2. The engine). -/
def Obligations.StepRecordsIllegalWord : Prop :=
  ∀ (s : State) (e : IllegalWord), fieldsInRange s = true → engineMoves s = true → decode s.pend = .error e →
    step s = .next (if s.err then { s with busy := false }
      else { s with err := true, errCode := 1, busy := false })

/-- R336: while BUSY = 0 the engine performs no step, and with nothing arriving all state is held. -/
def Obligations.IdleBlockHoldsItsState : Prop :=
  ∀ s : State, s.busy = false →
    engineMoves s = false ∧ (fieldsInRange s = true → s.inputs = [] → step s = .next s)

/-- The engine step always completes, and always clears BUSY (45_commands.md, 2. The engine). -/
def Obligations.EngineStepCompletes : Prop :=
  ∀ s : State, fieldsInRange s = true → ∃ t, engineStep s = .next t ∧ t.busy = false

/-- Fairness as this model has it (log entry 2): after at most as many steps as the inputs still take before
pending commands, the command's turn has come, with PEND as it was, or a reset has discarded it. -/
def Obligations.PendingCommandGetsItsTurn : Prop :=
  ∀ s : State, fieldsInRange s = true → s.busy = true →
    ∃ k t, k ≤ (s.inputs.map Input.before).sum ∧ Host.Core.run Sys2Proof.core k s = .next t ∧
      ((engineMoves t = true ∧ t.pend = s.pend) ∨ (t.busy = false ∧ statusWord t = 0))

/-! ### NOP, INIT, CLRERR, SRST -/

/-- R274: NOP, word 0x00000000, writes nothing and raises nothing, in any state. -/
def Obligations.NopChangesNothing : Prop :=
  decode 0x00000000 = .ok .nop ∧ ∀ s : State, exec .nop s = .next s

/-- R153: INIT md2 writes X, C and L with zeros. With it LEN, DIG, ALG and PHASE (45_commands.md, 3. Commands),
in every phase; everything else is as before. -/
def Obligations.InitMd2Starts : Prop :=
  ∀ s : State, s.err = false →
    exec .initMd2 s = .next { s with
      algo := { s.algo with x := Vector.replicate 48 0, c := Vector.replicate 16 0, l := 0 }
      len := 0, dig := Vector.replicate 20 0, alg := 0, phase := 1 }

/-- R181: INIT md4 writes H0-H3 with the initial values and H4 with 0. With it LEN, DIG, ALG and PHASE, in every
phase; everything else is as before. -/
def Obligations.InitMd4Starts : Prop :=
  ∀ s : State, s.err = false →
    exec .initMd4 s = .next { s with
      algo := { s.algo with
        h0 := 0x67452301, h1 := 0xefcdab89, h2 := 0x98badcfe, h3 := 0x10325476, h4 := 0 }
      len := 0, dig := Vector.replicate 20 0, alg := 1, phase := 1 }

/-- R210: INIT md5 writes the same initial values as INIT md4. With it LEN, DIG, ALG and PHASE, in every phase;
everything else is as before. -/
def Obligations.InitMd5Starts : Prop :=
  ∀ s : State, s.err = false →
    exec .initMd5 s = .next { s with
      algo := { s.algo with
        h0 := 0x67452301, h1 := 0xefcdab89, h2 := 0x98badcfe, h3 := 0x10325476, h4 := 0 }
      len := 0, dig := Vector.replicate 20 0, alg := 2, phase := 1 }

/-- R241: INIT sha1 writes H0-H4 with the initial values. With it LEN, DIG, ALG and PHASE, in every phase;
everything else is as before. -/
def Obligations.InitSha1Starts : Prop :=
  ∀ s : State, s.err = false →
    exec .initSha1 s = .next { s with
      algo := { s.algo with
        h0 := 0x67452301, h1 := 0xefcdab89, h2 := 0x98badcfe, h3 := 0x10325476, h4 := 0xc3d2e1f0 }
      len := 0, dig := Vector.replicate 20 0, alg := 3, phase := 1 }

/-- R97: INIT with ALG = 4-7 is a legal encoding, and raises UNIMPL_ALG (code 2), not ILLEGAL_CMD. -/
def Obligations.InitSha2RaisesUnimplAlg : Prop :=
  (decode 0x00000041 = .ok .initSha224 ∧ decode 0x00000051 = .ok .initSha256 ∧
    decode 0x00000061 = .ok .initSha384 ∧ decode 0x00000071 = .ok .initSha512) ∧
  ∀ (s : State) (i : Instr), s.err = false → i ∈ [.initSha224, .initSha256, .initSha384, .initSha512] →
    exec i s = .next { s with err := true, errCode := 2 }

/-- R35: CAPS reads 0x0000000F and takes no write, and bit k is 1 exactly when INIT with ALG = k succeeds. -/
def Obligations.CapsTellsWhichInitSucceeds : Prop :=
  (∀ (s : State) (v : Word), readValue .caps s = 0x0000000F ∧ busWrite .caps v s = s) ∧
  ∀ (s : State) (k : Fin 8), s.err = false →
    (capsWord.getLsbD k.val = true ↔
      ∃ t, exec (initOfCode (BitVec.ofNat 3 k.val)) s = .next t ∧ t.err = false)

/-- R278: CLRERR, word 0x00000004, clears ERR, ERRCODE and OVR, whatever ERR is, and nothing else. -/
def Obligations.ClrerrClearsErrors : Prop :=
  decode 0x00000004 = .ok .clrerr ∧
  ∀ s : State, exec .clrerr s = .next { s with err := false, errCode := 0, ovr := false }

/-- R279: SRST, word 0x00000005, gives every state element its reset value, whatever ERR is; the unspecified ones
hold some value. The inputs to come and what the host has read and found, which lie outside the block, stay. -/
def Obligations.SrstGivesResetValues : Prop :=
  decode 0x00000005 = .ok .srst ∧ ∀ s : State, ∃ pend algo micro draws,
    exec .srst s = .next {
      busy := false, phase := 0, err := false, errCode := 0, alg := 0, ovr := false, len := 0
      blk := Vector.replicate 64 0, dig := Vector.replicate 20 0, pend := pend, algo := algo, micro := micro
      inputs := s.inputs, reads := s.reads, checks := s.checks, draws := draws }

/-- R350: the reset input and SRST have the same effect; and a reset that comes before a pending command
discards it (70_reset_and_hazards.md, 1. Reset). -/
def Obligations.ResetInputEqualsSrst : Prop :=
  (∀ s : State, hostStep .reset s = exec .srst s) ∧
  ∀ (s : State) (n : Nat) (rest : List Input), fieldsInRange s = true → s.inputs = ⟨n, .reset⟩ :: rest →
    s.busy = false ∨ n ≠ 0 → ∃ t, step s = .next t ∧ t.busy = false ∧ statusWord t = 0 ∧ t.len = 0 ∧
      t.blk = Vector.replicate 64 0 ∧ t.dig = Vector.replicate 20 0 ∧ t.inputs = rest

/-- The reset values the spec states (R44, R351), read through the window. -/
def Obligations.ResetValuesReadThroughWindow : Prop :=
  State.reset.busy = false ∧ readValue .status State.reset = 0 ∧ readValue .id State.reset = 0x4C4F5245 ∧
  readValue .caps State.reset = 0x0000000F ∧ readValue .lenLo State.reset = 0 ∧
  readValue .lenHi State.reset = 0 ∧ (∀ k, readValue (.blk k) State.reset = 0) ∧
  (∀ k, readValue (.dig k) State.reset = 0)

/-! ### BLOCK and FINAL -/

/-- R158, R159: BLOCK under MD2 absorbs BLK[0..16]; FINAL n, for n < 16, absorbs the padded tail, compresses the
checksum block into X only, and the digest is X[0..16]. -/
def Obligations.Md2BlockAndFinal : Prop :=
  ∀ s : State, s.err = false → s.phase = 1 → s.alg = 0 →
    (∃ μ n, exec .block s = .next { s with
      algo := { s.algo with
        c := (md2ChecksumUpdate s.algo.c s.algo.l (Vector.ofFn fun i => s.blk[i.val])).1
        l := (md2ChecksumUpdate s.algo.c s.algo.l (Vector.ofFn fun i => s.blk[i.val])).2
        x := md2Compress s.algo.x (Vector.ofFn fun i => s.blk[i.val]) }
      len := s.len + 16, micro := μ, draws := n }) ∧
    ∀ tail : BitVec 6, tail.toNat < 16 →
      let h := md2Absorb s.algo (blockAt 16 (padTailMd2 (s.blk.toList.take tail.toNat)) 0)
      let X := md2Compress h.x h.c
      ∃ μ n, exec (.final tail) s = .next { s with
        algo := { h with x := X }
        len := s.len + tail.setWidth 64
        dig := (Vector.ofFn fun i : Fin 16 => X[i.val]) ++ (Vector.replicate 4 0 : Vector Byte 4)
        phase := 2, micro := μ, draws := n }

/-- R190: BLOCK under MD4 performs `md4_compress(H, BLK[0..64])`; FINAL n, for every n, performs it on each block
of the padded tail and writes the little-endian digest. -/
def Obligations.Md4BlockAndFinal : Prop :=
  ∀ s : State, s.err = false → s.phase = 1 → s.alg = 1 →
    (∃ μ n, exec .block s = .next { s with
      algo := md4Compress s.algo s.blk, len := s.len + 64, micro := μ, draws := n }) ∧
    ∀ tail : BitVec 6,
      let len := s.len + tail.setWidth 64
      let h := (blocksOf 64 (padTailMd .littleEndian (s.blk.toList.take tail.toNat) len)).foldl md4Compress s.algo
      ∃ μ n, exec (.final tail) s = .next { s with
        algo := h, len := len
        dig := wordsToBytes 4 .littleEndian #v[h.h0, h.h1, h.h2, h.h3] ++ (Vector.replicate 4 0 : Vector Byte 4)
        phase := 2, micro := μ, draws := n }

/-- R220: BLOCK under MD5 performs `md5_compress(H, BLK[0..64])`; FINAL n, for every n, performs it on each block
of the padded tail and writes the little-endian digest. -/
def Obligations.Md5BlockAndFinal : Prop :=
  ∀ s : State, s.err = false → s.phase = 1 → s.alg = 2 →
    (∃ μ n, exec .block s = .next { s with
      algo := md5Compress s.algo s.blk, len := s.len + 64, micro := μ, draws := n }) ∧
    ∀ tail : BitVec 6,
      let len := s.len + tail.setWidth 64
      let h := (blocksOf 64 (padTailMd .littleEndian (s.blk.toList.take tail.toNat) len)).foldl md5Compress s.algo
      ∃ μ n, exec (.final tail) s = .next { s with
        algo := h, len := len
        dig := wordsToBytes 4 .littleEndian #v[h.h0, h.h1, h.h2, h.h3] ++ (Vector.replicate 4 0 : Vector Byte 4)
        phase := 2, micro := μ, draws := n }

/-- R247: BLOCK under SHA-1 performs `sha1_compress(H, BLK[0..64])`; FINAL n, for every n, performs it on each
block of the padded tail and writes the big-endian digest. -/
def Obligations.Sha1BlockAndFinal : Prop :=
  ∀ s : State, s.err = false → s.phase = 1 → s.alg = 3 →
    (∃ μ n, exec .block s = .next { s with
      algo := sha1Compress s.algo s.blk, len := s.len + 64, micro := μ, draws := n }) ∧
    ∀ tail : BitVec 6,
      let len := s.len + tail.setWidth 64
      let h := (blocksOf 64 (padTailMd .bigEndian (s.blk.toList.take tail.toNat) len)).foldl sha1Compress s.algo
      ∃ μ n, exec (.final tail) s = .next { s with
        algo := h, len := len
        dig := wordsToBytes 5 .bigEndian #v[h.h0, h.h1, h.h2, h.h3, h.h4]
        phase := 2, micro := μ, draws := n }

/-- FINAL n reads only BLK[0..n], and an MD2 BLOCK only BLK[0..16] (45_commands.md, 3. Commands, corner cases of
BLOCK and FINAL; U16): with any other bytes beyond, the command does the same and leaves those bytes. -/
def Obligations.StaleBlkBytesDoNotMatter : Prop :=
  ∀ (s t : State) (B : Vector Byte 64),
    (∀ tail : BitVec 6, (∀ i : Fin 64, i.val < tail.toNat → B[i] = s.blk[i]) →
      exec (.final tail) s = .next t → exec (.final tail) { s with blk := B } = .next { t with blk := B }) ∧
    (s.alg = 0 → (∀ i : Fin 64, i.val < 16 → B[i] = s.blk[i]) →
      exec .block s = .next t → exec .block { s with blk := B } = .next { t with blk := B })

/-! ### Errors -/

/-- R324: which error a command raises, in the order of the checks: decode, the error gate, UNIMPL_ALG, NOT_INIT,
ALREADY_FINAL, BAD_TAIL. -/
def Obligations.ErrorsFollowPriority : Prop :=
  (∀ (s : State) (w : Word) (e : IllegalWord), s.err = false → decode w = .error e →
    executeWord w s = .next { s with err := true, errCode := 1 }) ∧
  (∀ (s : State) (i : Instr), s.err = true → gatedByError i = true → exec i s = .next s) ∧
  (∀ (s : State) (i : Instr), s.err = false → i ∈ [.initSha224, .initSha256, .initSha384, .initSha512] →
    exec i s = .next { s with err := true, errCode := 2 }) ∧
  (∀ (s : State) (i : Instr), s.err = false → i = .block ∨ (∃ n, i = .final n) →
    (s.phase = 0 → exec i s = .next { s with err := true, errCode := 3 }) ∧
    (s.phase = 2 → exec i s = .next { s with err := true, errCode := 4 })) ∧
  (∀ (s : State) (tail : BitVec 6), s.err = false → s.phase = 1 → s.alg = 0 → 16 ≤ tail.toNat →
    exec (.final tail) s = .next { s with err := true, errCode := 5 })

/-- R326: a command word that raises an error writes only ERR and ERRCODE (BUSY is the engine step's), and a word
the gate drops, or an illegal word while ERR = 1, writes nothing. -/
def Obligations.FailedCommandsHaveNoOtherEffect : Prop :=
  ∀ (w : Word) (s t : State), executeWord w s = .next t →
    (s.err = false → t.err = true → t = { s with err := true, errCode := t.errCode }) ∧
    (s.err = true → (∀ i, decode w = .ok i → gatedByError i = true) → t = s)

/-- Once an error is recorded, only the words of CLRERR and SRST change ERR or ERRCODE (60_exceptions.md, 1. Error
model). -/
def Obligations.FirstErrorIsKept : Prop :=
  ∀ (w : Word) (s t : State), executeWord w s = .next t → s.err = true → w ≠ 0x00000004 → w ≠ 0x00000005 →
    t.err = true ∧ t.errCode = s.errCode

/-- R30, its last paragraph: a successful INIT moves any phase to ABSORB, a successful FINAL moves ABSORB to DONE,
SRST moves any phase to IDLE, and no command changes PHASE otherwise; of the outside's moves only reset does. -/
def Obligations.PhaseMovesOnlyAsListed : Prop :=
  (∀ (i : Instr) (s t : State), exec i s = .next t → t.phase ≠ s.phase →
    (i ∈ [.initMd2, .initMd4, .initMd5, .initSha1] ∧ t.phase = 1) ∨
      ((∃ n, i = .final n) ∧ s.phase = 1 ∧ t.phase = 2) ∨ (i = .srst ∧ t.phase = 0)) ∧
  ∀ (op : HostOp) (s t : State), hostStep op s = .next t → t.phase ≠ s.phase → op = .reset ∧ t.phase = 0

/-! ### Frames -/

/-- No command but SRST touches BLK, PEND or BUSY; no command at all touches the inputs to come or what the host
has read and found; and no command sets OVR (10_state.md, 6. writers). BLK through the window: every BLKk reads as before. -/
def Obligations.CommandsLeaveBlkAndPend : Prop :=
  ∀ (i : Instr) (s t : State), exec i s = .next t →
    t.inputs = s.inputs ∧ t.reads = s.reads ∧ t.checks = s.checks ∧ (t.ovr = true → s.ovr = true) ∧
    (i ≠ .srst → t.blk = s.blk ∧ (∀ k, readValue (.blk k) t = readValue (.blk k) s) ∧ t.pend = s.pend ∧
      t.busy = s.busy)

/-- What NOP, CLRERR and every INIT leave unchanged: BLK, PEND, BUSY, the micro-state; NOP and CLRERR leave LEN,
DIG, PHASE, ALG and the algorithm state; INIT leaves ERRCODE and OVR unless it raises, INIT md2 leaves H0-H4, and
the other INITs leave X, C and L (R46's first two sentences). -/
def Obligations.InitAndControlFrames : Prop :=
  ∀ (i : Instr) (s t : State), exec i s = .next t →
    i ∈ [.nop, .clrerr, .initMd2, .initMd4, .initMd5, .initSha1, .initSha224, .initSha256, .initSha384,
      .initSha512] →
    SameOutside s t ∧ t.blk = s.blk ∧ t.busy = s.busy ∧ t.micro = s.micro ∧ t.draws = s.draws ∧
    (i ≠ .clrerr → t.ovr = s.ovr) ∧
    (i ∈ [.nop, .initMd2, .initMd4, .initMd5, .initSha1] → t.err = s.err ∧ t.errCode = s.errCode) ∧
    (i ∈ [.nop, .clrerr, .initSha224, .initSha256, .initSha384, .initSha512] →
      t.algo = s.algo ∧ t.len = s.len ∧ t.dig = s.dig ∧ t.alg = s.alg ∧ t.phase = s.phase) ∧
    (i = .initMd2 → SameChaining s.algo t.algo) ∧
    (i ∈ [.initMd4, .initMd5, .initSha1] → SameMd2State s.algo t.algo)

/-- What BLOCK leaves unchanged: all but the algorithm state of ALG, LEN and the micro-state where it folds, and
ERR and ERRCODE where it raises (outside ABSORB, with no error recorded). -/
def Obligations.BlockFrame : Prop :=
  ∀ s t : State, exec .block s = .next t →
    SameOutside s t ∧ t.blk = s.blk ∧ t.busy = s.busy ∧ t.dig = s.dig ∧ t.phase = s.phase ∧ t.alg = s.alg ∧
    t.ovr = s.ovr ∧ (∀ k, readValue (.blk k) t = readValue (.blk k) s) ∧
    (s.alg = 0 → SameChaining s.algo t.algo) ∧ (s.alg ≠ 0 → SameMd2State s.algo t.algo) ∧
    (s.alg = 1 ∨ s.alg = 2 → t.algo.h4 = s.algo.h4) ∧
    (s.err = true ∨ s.phase = 1 → t.err = s.err ∧ t.errCode = s.errCode) ∧
    (s.err = true ∨ s.phase ≠ 1 → t.algo = s.algo ∧ t.len = s.len ∧ t.micro = s.micro)

/-- What FINAL leaves unchanged: all but the algorithm state of ALG, LEN, DIG, PHASE and the micro-state where it
folds, and ERR and ERRCODE where it raises (with no error recorded: outside ABSORB, or BAD_TAIL). -/
def Obligations.FinalFrame : Prop :=
  ∀ (tail : BitVec 6) (s t : State), exec (.final tail) s = .next t →
    SameOutside s t ∧ t.blk = s.blk ∧ t.busy = s.busy ∧ t.alg = s.alg ∧ t.ovr = s.ovr ∧
    (∀ k, readValue (.blk k) t = readValue (.blk k) s) ∧
    (s.alg = 0 → SameChaining s.algo t.algo) ∧ (s.alg ≠ 0 → SameMd2State s.algo t.algo) ∧
    (s.alg = 1 ∨ s.alg = 2 → t.algo.h4 = s.algo.h4) ∧
    (s.err = true ∨ s.phase = 1 ∧ ¬(s.alg = 0 ∧ 16 ≤ tail.toNat) → t.err = s.err ∧ t.errCode = s.errCode) ∧
    (s.err = true ∨ s.phase ≠ 1 ∨ s.alg = 0 ∧ 16 ≤ tail.toNat →
      t.algo = s.algo ∧ t.len = s.len ∧ t.dig = s.dig ∧ t.phase = s.phase ∧ t.micro = s.micro)

/-! ### The bus -/

/-- R270: what a read of each offset returns, and that it changes no state of the block. A draw is some value
(the model's next free value, log entry 6). -/
def Obligations.BusReadsReturnTheRegister : Prop :=
  ∀ (s : State) (off : BitVec 8), off.toNat % 4 = 0 →
    ∃ v n, hostStep (.read .bits32 off) s = .next { s with reads := v :: s.reads, draws := n } ∧
      (off = 0x00 → v = 0x4C4F5245) ∧
      (off = 0x04 → v = 0) ∧
      (off = 0x08 → v = statusWord s) ∧
      (off = 0x0C → v = 0x0000000F) ∧
      (off = 0x10 → s.busy = false → v = s.len.extractLsb' 0 32) ∧
      (off = 0x14 → s.busy = false → v = s.len.extractLsb' 32 32) ∧
      (∀ k : Fin 16, off.toNat = 0x40 + 4 * k.val →
        v = le32 s.blk[4 * k.val] s.blk[4 * k.val + 1] s.blk[4 * k.val + 2] s.blk[4 * k.val + 3]) ∧
      (∀ k : Fin 5, off.toNat = 0x80 + 4 * k.val → s.busy = false →
        v = le32 s.dig[4 * k.val] s.dig[4 * k.val + 1] s.dig[4 * k.val + 2] s.dig[4 * k.val + 3]) ∧
      (0x18 ≤ off.toNat ∧ off.toNat ≤ 0x3C ∨ 0x94 ≤ off.toNat → v = 0)

/-- R271: what a write to each offset does. -/
def Obligations.BusWritesReachTheRegister : Prop :=
  ∀ (s : State) (off : BitVec 8) (v : Word), off.toNat % 4 = 0 →
    ∃ t, hostStep (.write .bits32 off v) s = .next t ∧
      (off = 0x04 → t = if s.busy then { s with ovr := true } else { s with pend := v, busy := true }) ∧
      (∀ k : Fin 16, off.toNat = 0x40 + 4 * k.val →
        if s.busy then t = { s with ovr := true }
        else t = { s with blk := t.blk } ∧
          ∀ i : Fin 64, t.blk[i] =
            if i.val / 4 = k.val then v.extractLsb' (8 * (i.val % 4)) 8 else s.blk[i]) ∧
      (off ≠ 0x04 → ¬(0x40 ≤ off.toNat ∧ off.toNat ≤ 0x7C) → t = s)

/-- R63: little-endian lanes. A word written to BLKk reads back whole, and its bytes are the lanes of the word. -/
def Obligations.BlkWordReadsBack : Prop :=
  ∀ (s t : State) (k : Fin 16) (v : Word), s.busy = false →
    hostStep (.write .bits32 (offBlk k.val) v) s = .next t →
    readValue (.blk k) t = v ∧
    (∀ j : Fin 4, t.blk[4 * k.val + j.val] = v.extractLsb' (8 * j.val) 8) ∧
    ∀ k' : Fin 16, k' ≠ k → readValue (.blk k') t = readValue (.blk k') s

/-- R71: no access changes BLK, or the pending word, between the CMD write and the engine step. While BUSY = 1 an
access of the host leaves BUSY, BLK, PEND, the algorithm state, LEN, DIG, PHASE, ERR, ERRCODE, ALG, the micro-state
and the inputs to come as they were. -/
def Obligations.PendingCommandKeepsItsBlk : Prop :=
  ∀ (op : HostOp) (s t : State), s.busy = true → hostStep op s = .next t → op ≠ .reset →
    t.busy = true ∧ t.blk = s.blk ∧ t.pend = s.pend ∧ t.algo = s.algo ∧ t.len = s.len ∧ t.dig = s.dig ∧
    t.phase = s.phase ∧ t.err = s.err ∧ t.errCode = s.errCode ∧ t.alg = s.alg ∧ t.micro = s.micro ∧
    t.inputs = s.inputs

/-- Only 32-bit accesses at multiples of 4 are admitted; any other has no step (20_memory.md, 2. Access width). That
this is the fault hostStuck is the model's choice: of the move itself, and of `step` once no command is pending and
no reset is to come (log entry 10; entry 2 for the reset). A stuck access with a command pending or a reset to come
is left out. -/
def Obligations.NarrowOrMisalignedAccessIsStuck : Prop :=
  ∀ (s : State) (width : AccessWidth) (off : BitVec 8) (v : Word) (op : HostOp),
    op = .read width off ∨ op = .write width off v →
    (width ≠ .bits32 ∨ off.toNat % 4 ≠ 0 →
      hostStep op s = .fault .hostStuck ∧
      ∀ (n : Nat) (rest : List Input), fieldsInRange s = true → s.busy = false → s.inputs = ⟨n, op⟩ :: rest →
        (∀ i ∈ rest, i.op ≠ .reset) → step s = .fault .hostStuck) ∧
    (width = .bits32 → off.toNat % 4 = 0 →
      ∀ (n : Nat) (rest : List Input), fieldsInRange s = true → s.busy = false → s.inputs = ⟨n, op⟩ :: rest →
        ∃ t, step s = .next t ∧ t.inputs = rest)

/-- R61: BASE is a multiple of 256; an access at `BASE + off` is the access at offset `off`; an address outside the
window is not the block's concern. -/
def Obligations.AddressesReachWindowOffsets : Prop :=
  Config.base % 256 = 0 ∧
  (∀ (off : BitVec 8) (v : Word), memRead (Config.base + off.toNat) = some (.read .bits32 off) ∧
    memWrite (Config.base + off.toNat) v = some (.write .bits32 off v)) ∧
  ∀ (addr : Nat) (v : Word), addr < Config.base ∨ Config.base + 256 ≤ addr →
    memRead addr = none ∧ memWrite addr v = none

/-- R29: the fields of STATUS. -/
def Obligations.StatusHoldsItsFields : Prop :=
  ∀ s : State, (statusWord s).getLsbD 0 = s.busy ∧ (statusWord s).extractLsb' 1 2 = s.phase ∧
    (statusWord s).getLsbD 3 = s.err ∧ (statusWord s).extractLsb' 4 4 = s.errCode ∧
    (statusWord s).extractLsb' 8 3 = s.alg ∧ (statusWord s).getLsbD 11 = s.ovr ∧
    (statusWord s).extractLsb' 12 20 = 0

/-! ### The algorithms -/

/-- R124: the codec's round trip, in both byte orders and both directions. -/
def Obligations.CodecRoundTrip : Prop :=
  ∀ (n : Nat) (e : ByteOrder),
    (∀ B : Vector Byte (4 * n), wordsToBytes n e (bytesToWords n e B) = B) ∧
    ∀ W : Vector Word n, bytesToWords n e (wordsToBytes n e W) = W

/-- R134: the tail padding completes the whole-message padding. -/
def Obligations.TailPaddingCompletesMessage : Prop :=
  ∀ F T : List Byte,
    (∀ e : ByteOrder, F.length % 64 = 0 → T.length < 64 →
      padMd e (F ++ T) = F ++ padTailMd e T (BitVec.ofNat 64 (F ++ T).length)) ∧
    (F.length % 16 = 0 → T.length < 16 → padMd2 (F ++ T) = F ++ padTailMd2 T)

/-- R135: padding alignment. -/
def Obligations.PaddingIsAligned : Prop :=
  (∀ (m : List Byte) (e : ByteOrder), (padMd e m).length % 64 = 0) ∧
  (∀ m : List Byte, (padMd2 m).length % 16 = 0 ∧ m.length < (padMd2 m).length) ∧
  (∀ (T : List Byte) (e : ByteOrder) (n : Length), T.length < 64 →
    (padTailMd e T n).length = 64 ∨ (padTailMd e T n).length = 128) ∧
  ∀ T : List Byte, T.length < 16 → (padTailMd2 T).length = 16

/-- R131: a tail of at most 55 bytes pads to one block, a longer one to two; and so does a whole message, by its
length mod 64. -/
def Obligations.TailPadsToOneOrTwoBlocks : Prop :=
  (∀ (T : List Byte) (e : ByteOrder) (n : Length), T.length < 64 →
    (blocksOf 64 (padTailMd e T n)).length = if T.length ≤ 55 then 1 else 2) ∧
  ∀ (m : List Byte) (e : ByteOrder),
    (padMd e m).length = m.length + 1 + zeroBytes m.length + 8 ∧
    (m.length % 64 ≤ 55 → (padMd e m).length = 64 * (m.length / 64) + 64) ∧
    (56 ≤ m.length % 64 → (padMd e m).length = 64 * (m.length / 64) + 128)

/-- R132: for a message of n bytes the 8 bytes of the length field, read in the order e, are the number of its
bits mod 2^64, whatever n is; and lengths that agree mod 2^61 give the same field. -/
def Obligations.LengthFieldWraps : Prop :=
  (∀ n : Nat,
    (lengthField .littleEndian (BitVec.ofNat 64 n)).length = 8 ∧
    (lengthField .bigEndian (BitVec.ofNat 64 n)).length = 8 ∧
    (lengthField .littleEndian (BitVec.ofNat 64 n)).foldr (fun b v => b.toNat + 256 * v) 0 = 8 * n % 2 ^ 64 ∧
    (lengthField .bigEndian (BitVec.ofNat 64 n)).foldl (fun v b => 256 * v + b.toNat) 0 = 8 * n % 2 ^ 64) ∧
  ∀ (e : ByteOrder) (L M : Length), L.toNat % 2 ^ 61 = M.toNat % 2 ^ 61 → lengthField e L = lengthField e M

/-- R152: the S-box is a permutation of the bytes. -/
def Obligations.SBoxIsPermutation : Prop := Function.Bijective sBox

/-- R27: after any checksum update, L equals C[15]. -/
def Obligations.ChecksumLinkIsLastByte : Prop :=
  ∀ (C : Vector Byte 16) (L : Byte) (B : Vector Byte 16),
    (md2ChecksumUpdate C L B).2 = (md2ChecksumUpdate C L B).1[15]

/-- R160: updating the checksum as each block arrives gives what lore's two passes give, for every message. -/
def Obligations.IncrementalChecksumEqualsTwoPass : Prop := ∀ m : List Byte, md2 m = md2TwoPass m

/-- R189: the MD4 steps without register movement give the same registers. -/
def Obligations.Md4InPlaceForm : Prop :=
  ∀ (M : Vector Word 16) (q : Quad), (List.finRange 48).foldl (md4StepInPlace M) q = md4Steps M q

/-- R219: the MD5 steps without register movement give the same registers. -/
def Obligations.Md5InPlaceForm : Prop :=
  ∀ (M : Vector Word 16) (q : Quad), (List.finRange 64).foldl (md5StepInPlace M) q = md5Steps M q

/-- R242: the schedule W[0..80]. -/
def Obligations.Sha1ScheduleRecurrence : Prop :=
  ∀ B : Vector Byte 64,
    (∀ k : Fin 16, (sha1Schedule B)[k.val] =
      be32 B[4 * k.val] B[4 * k.val + 1] B[4 * k.val + 2] B[4 * k.val + 3]) ∧
    ∀ k : Fin 64, (sha1Schedule B)[16 + k.val] =
      rotl ((sha1Schedule B)[13 + k.val] ^^^ (sha1Schedule B)[8 + k.val] ^^^ (sha1Schedule B)[2 + k.val] ^^^
        (sha1Schedule B)[k.val]) 1

/-- R243: the rolling window holds W[i-16..i] at step i, and the word it feeds to step i is W[i]. -/
def Obligations.Sha1RollingWindow : Prop :=
  ∀ (B : Vector Byte 64) (n : Fin 64),
    (∀ j : Fin 16, (sha1WindowAfter B n.val)[j] = (sha1Schedule B)[n.val + j.val]) ∧
    sha1WindowWord (sha1WindowAfter B n.val) = (sha1Schedule B)[16 + n.val]

/-! ### The machine as a whole -/

/-- The invariant holds at reset (10_state.md, 6. reset values). -/
def Obligations.ResetMeetsInvariant : Prop := StateInv State.reset

/-- Every step keeps the invariant: no field holds a value never produced (R30, R31, R322), ERRCODE goes with ERR
(R32), DIG is 0^20 outside DONE (R356), LEN and ALG are 0 in IDLE, L = C[15] (R27), H4 = 0 under MD4 and MD5
(R24), DIG[16..20] is 0 but for SHA-1 (R39). -/
def Obligations.StepKeepsInvariant : Prop :=
  ∀ s t : State, StateInv s → step s = .next t → StateInv t

/-- R328: ENGINE_INVARIANT "must never be reachable": no step from a state that meets the invariant gives it. -/
def Obligations.EngineInvariantIsUnreachable : Prop :=
  ∀ s : State, StateInv s → step s ≠ .fault .engineInvariant

/-- The unspecified values "cannot be observed" (10_state.md, 6. reset values; 93_implementation_defined.md U2): two
states that differ only in PEND while BUSY = 0, the micro-state, and algorithm state no message in progress uses,
have the same step, to two such states again. -/
def Obligations.UnspecifiedStateIsUnobservable : Prop :=
  ∀ s t : State, SameObserved s t → SameOutcome (step s) (step t)

/-- R282: for every algorithm and every message, the host program of R283 ends with the digest of lore's
whole-message function in DIG, the message length in LEN, and STATUS = 0x004 + 0x100·code(A), from every state
that meets the invariant, with no command pending, no error and no overrun, whatever the order of the host's and
the engine's steps, each `wait` polling as often as it will (R20, R272: `before` of every input is free); its
`checkerr` finds no error, and the host has read the digest. -/
def Obligations.HashComputesWholeMessageDigest : Prop :=
  ∀ (A : HashAlg) (m : List Byte) (s : State),
    StateInv s → s.busy = false → s.err = false → s.ovr = false → s.inputs.map Input.op = hashOps A m →
    ∃ k t, Host.Core.run Sys2Proof.core k s = .next t ∧ t.inputs = [] ∧ t.busy = false ∧
      t.dig.toList.take (hashBytes A m).length = hashBytes A m ∧
      t.len = BitVec.ofNat 64 m.length ∧
      statusWord t = 0x004 + 0x100 * (hashCode A).setWidth 32 ∧
      t.checks = none :: s.checks ∧
      (t.reads.take 5).reverse = [readValue (.dig 0) t, readValue (.dig 1) t, readValue (.dig 2) t,
        readValue (.dig 3) t, readValue (.dig 4) t]

/-- `wait` (30_encoding.md, 4. Assembler syntax): each step of it reads STATUS, and it goes round again exactly
while bit 0 of what it read is 1. With a command pending and no poll left before it (log entry 2), the engine moves;
with none pending, one read ends it, whatever number of polls was to come. -/
def Obligations.WaitPollsUntilIdle : Prop :=
  ∀ (s : State) (n : Nat) (rest : List Input), fieldsInRange s = true → s.inputs = ⟨n, .wait⟩ :: rest →
    (s.busy = true → n = 0 → step s = engineStep s) ∧
    (s.busy = false ∨ n ≠ 0 → step s = .next { s with
      reads := statusWord s :: s.reads
      inputs := if (statusWord s).getLsbD 0 then ⟨n - 1, .wait⟩ :: rest else rest })

/-- `checkerr` (30_encoding.md, 4. Assembler syntax): the host reads STATUS, and finds an error exactly if bit 3 is
1, with the code in bits 7:4, which are ERR and ERRCODE. That it records what it found and goes on is the model's
choice (log entry 3). -/
def Obligations.CheckerrTakesErrorCode : Prop :=
  ∀ (s : State) (n : Nat) (rest : List Input), fieldsInRange s = true → s.inputs = ⟨n, .checkErr⟩ :: rest →
    s.busy = false ∨ n ≠ 0 →
    step s = .next { s with
      inputs := rest
      reads := statusWord s :: s.reads
      checks := (if (statusWord s).getLsbD 3 then some ((statusWord s).extractLsb' 4 4) else none) :: s.checks } ∧
    ((statusWord s).getLsbD 3 = s.err ∧ (statusWord s).extractLsb' 4 4 = s.errCode)

/-- R62: an access that is not a 32-bit one at a multiple of 4 is not admitted: the host's move has no next state,
and the host stays at it. A step the machine takes there is the engine's or a reset's: the access stays the next
one, and the host reads and finds nothing. An admitted access has its step. -/
def Obligations.HostStaysAtNonAdmittedAccess : Prop :=
  ∀ (s : State) (width : AccessWidth) (off : BitVec 8) (v : Word) (op : HostOp),
    op = .read width off ∨ op = .write width off v →
    (width ≠ .bits32 ∨ off.toNat % 4 ≠ 0 →
      (∀ t, hostStep op s ≠ .next t) ∧
      ∀ (n : Nat) (rest : List Input) (t : State), s.inputs = ⟨n, op⟩ :: rest → step s = .next t →
        t.inputs.head? = some ⟨n, op⟩ ∧ t.reads = s.reads ∧ t.checks = s.checks ∧
        (engineStep s = .next t ∨ ∃ ins, hostStep .reset { s with inputs := ins } = .next t)) ∧
    (width = .bits32 → off.toNat % 4 = 0 → ∃ t, hostStep op s = .next t)
end

