-- ==== Sys2Proof/Laws/Codec.lean ====
section
/-! SUPPORT. Lengths of the padding (40_codec_padding.md R130, R133), and the blocks of a byte sequence in two
parts. -/

namespace Sys2Proof.Machine

@[simp] theorem lengthField_length (e : ByteOrder) (n : Length) : (lengthField e n).length = 8 := by
  cases e <;> simp [lengthField]

/-- `n + 1 + z + 8`. -/
theorem padTailMd_length (e : ByteOrder) (tail : List Byte) (n : Length) :
    (padTailMd e tail n).length = tail.length + 1 + zeroBytes tail.length + 8 := by
  simp [padTailMd]
  omega

/-- `L + 1 + z + 8`. -/
theorem padMd_length (e : ByteOrder) (m : List Byte) : (padMd e m).length = m.length + 1 + zeroBytes m.length + 8 := by
  simp [padMd]
  omega

@[simp] theorem blocksOf_length (n : Nat) (P : List Byte) : (blocksOf n P).length = P.length / n := by
  simp [blocksOf]

theorem blockAt_getElem (n : Nat) (P : List Byte) (k i : Nat) (hi : i < n) :
    (blockAt n P k)[i] = P.getD (n * k + i) 0 := by
  simp [blockAt]

/-- A block inside the first part. -/
theorem blockAt_append_left {n : Nat} (F T : List Byte) (k : Nat) (hk : n * k + n ≤ F.length) :
    blockAt n (F ++ T) k = blockAt n F k := by
  apply Vector.ext
  intro i hi
  simp only [blockAt_getElem]
  rw [List.getD_append _ _ _ _ (by omega)]

/-- A block inside the second part. -/
theorem blockAt_append_right {n : Nat} (F T : List Byte) (q k : Nat) (hF : F.length = n * q) :
    blockAt n (F ++ T) (q + k) = blockAt n T k := by
  apply Vector.ext
  intro i hi
  simp only [blockAt_getElem]
  rw [List.getD_append_right _ _ _ _ (by rw [hF, Nat.mul_add]; omega)]
  congr 1
  rw [hF, Nat.mul_add]
  omega

/-- The blocks of whole blocks followed by more. -/
theorem blocksOf_append {n : Nat} (hn : 0 < n) (F T : List Byte) (hF : F.length % n = 0) :
    blocksOf n (F ++ T) = blocksOf n F ++ blocksOf n T := by
  obtain ⟨q, hq⟩ := Nat.dvd_of_mod_eq_zero hF
  have hlen : (F ++ T).length / n = q + T.length / n := by
    rw [List.length_append, hq, Nat.mul_add_div hn]
  have hFq : F.length / n = q := by rw [hq, Nat.mul_div_cancel_left _ hn]
  simp only [blocksOf, hlen, hFq, List.range_add, List.map_append, List.map_map]
  congr 1
  · apply List.map_congr_left
    intro k hk
    have hk := List.mem_range.mp hk
    apply blockAt_append_left
    rw [hq, ← Nat.mul_succ]
    exact Nat.mul_le_mul_left _ hk
  · apply List.map_congr_left
    intro k _
    exact blockAt_append_right F T q k hq

end Sys2Proof.Machine
end

