-- ==== Sys2Proof/Laws/Engines.lean ====
section
/-! SUPPORT. The engines compute the rules' functions: stepping through the micro-state never leaves STEP's
range, and gives what the function of the rule gives (10_state.md R43). -/

namespace Sys2Proof.Machine

/-- Two runs of steps, one after the other. -/
theorem runSteps_add {α : Type} (f : α → Except Fault α) (m n : Nat) (μ ν : α)
    (h : runSteps f m μ = .ok ν) : runSteps f (m + n) μ = runSteps f n ν := by
  induction m generalizing μ with
  | zero => simp only [runSteps, Except.ok.injEq] at h; simp [h]
  | succ m ih =>
    rw [Nat.succ_add, runSteps]
    rw [runSteps] at h
    cases hf : f μ with
    | error r => rw [hf] at h; cases h
    | ok ν' => rw [hf] at h; exact ih ν' h

/-- A loop over STEP = 0 .. n whose steps follow `g` is the fold of `g` over the step numbers. -/
theorem runSteps_fold {α : Type} {n : Nat} (f : α → Except Fault α) (g : α → Fin n → α) (step : α → Nat)
    (hf : ∀ (μ : α) (i : Fin n), step μ = i.val → f μ = .ok (g μ i))
    (hg : ∀ (μ : α) (i : Fin n), step μ = i.val → step (g μ i) = i.val + 1) (μ : α) (h0 : step μ = 0) :
    runSteps f n μ = .ok ((List.finRange n).foldl g μ) := by
  have main : ∀ k (hk : k ≤ n), ∃ ν, runSteps f k μ = .ok ν ∧ step ν = k ∧
      ν = ((List.finRange n).take k).foldl g μ := by
    intro k
    induction k with
    | zero => intro _; exact ⟨μ, rfl, h0, by simp⟩
    | succ k ih =>
      intro hk
      obtain ⟨ν, hrun, hstep, hν⟩ := ih (by omega)
      have hi : step ν = (⟨k, by omega⟩ : Fin n).val := hstep
      refine ⟨g ν ⟨k, by omega⟩, ?_, hg ν _ hi, ?_⟩
      · rw [runSteps_add f k 1 μ ν hrun, runSteps, hf ν _ hi]; rfl
      · rw [List.take_succ_eq_append_getElem (by simpa using hk)]
        simp [List.foldl_append, hν]
  obtain ⟨ν, hrun, _, hν⟩ := main n le_rfl
  rw [hrun, hν, List.take_of_length_le (by simp)]

/-! ### MD4, MD5 and SHA-1 -/

theorem microQuad_foldl {n : Nat} (step : Vector Word 16 → Quad → Fin n → Quad) (l : List (Fin n)) (μ : Micro) :
    microQuad (l.foldl (fun ν i => setQuad ν (step ν.m (microQuad ν) i)) μ) =
      l.foldl (step μ.m) (microQuad μ) := by
  induction l generalizing μ with
  | nil => rfl
  | cons i l ih => exact ih _

theorem microQuint_foldl {n : Nat} (step : Vector Word 80 → Quint → Fin n → Quint) (l : List (Fin n)) (μ : Micro) :
    microQuint (l.foldl (fun ν i => setQuint ν (step ν.w (microQuint ν) i)) μ) =
      l.foldl (step μ.w) (microQuint μ) := by
  induction l generalizing μ with
  | nil => rfl
  | cons i l ih => exact ih _

/-- The MD4 engine computes `md4_compress`, whatever the micro-state held before. -/
theorem md4Engine_eq (μ : Micro) (h : AlgoState) (B : Vector Byte 64) :
    md4Engine μ h B = .ok (md4Compress h B) := by
  have hrun := runSteps_fold (n := 48) md4MicroStep
    (fun ν i => setQuad ν (md4Step ν.m (microQuad ν) i)) (fun ν => ν.step)
    (fun ν i hi => by simp [md4MicroStep, hi]) (fun ν i hi => by simp [setQuad, hi])
    (loadQuad μ h (bytesToWords 16 .littleEndian B)) rfl
  rw [md4Engine, hrun]
  simp only [microQuad_foldl]
  rfl

/-- The MD5 engine computes `md5_compress`, whatever the micro-state held before. -/
theorem md5Engine_eq (μ : Micro) (h : AlgoState) (B : Vector Byte 64) :
    md5Engine μ h B = .ok (md5Compress h B) := by
  have hrun := runSteps_fold (n := 64) md5MicroStep
    (fun ν i => setQuad ν (md5Step ν.m (microQuad ν) i)) (fun ν => ν.step)
    (fun ν i hi => by simp [md5MicroStep, hi]) (fun ν i hi => by simp [setQuad, hi])
    (loadQuad μ h (bytesToWords 16 .littleEndian B)) rfl
  rw [md5Engine, hrun]
  simp only [microQuad_foldl]
  rfl

/-- The SHA-1 engine computes `sha1_compress`, whatever the micro-state held before. -/
theorem sha1Engine_eq (μ : Micro) (h : AlgoState) (B : Vector Byte 64) :
    sha1Engine μ h B = .ok (sha1Compress h B) := by
  have hrun := runSteps_fold (n := 80) sha1MicroStep
    (fun ν i => setQuint ν (sha1Step ν.w (microQuint ν) i)) (fun ν => ν.step)
    (fun ν i hi => by simp [sha1MicroStep, hi]) (fun ν i hi => by simp [setQuint, hi])
    (loadQuint μ h (sha1Schedule B)) rfl
  rw [sha1Engine, hrun]
  simp only [microQuint_foldl]
  rfl

/-- Folding blocks with an engine that never faults is folding them with its function. -/
theorem foldBlocks_eq {n : Nat} (compress : AlgoState → Vector Byte n → Except Fault AlgoState)
    (f : AlgoState → Vector Byte n → AlgoState) (hf : ∀ h B, compress h B = .ok (f h B))
    (Bs : List (Vector Byte n)) (h : AlgoState) : foldBlocks compress Bs h = .ok (Bs.foldl f h) := by
  induction Bs generalizing h with
  | nil => rfl
  | cons B Bs ih => simp [foldBlocks, hf, ih]

/-! ### MD2 -/

/-- The byte-steps of one round before its last, from STEP = 48 r. -/
theorem md2_bytes (r : Nat) (hr : r < 18) (X : Vector Byte 48) (μ : Micro) (hs : μ.step = 48 * r) (k : Nat)
    (hk : k ≤ 47) :
    runSteps md2MicroStep k (X, μ) =
      .ok ((((List.finRange 48).take k).foldl md2RoundByte (X, μ.t)).1,
        { μ with t := (((List.finRange 48).take k).foldl md2RoundByte (X, μ.t)).2, step := 48 * r + k }) := by
  induction k with
  | zero => simp [runSteps, ← hs]
  | succ k ih =>
    rw [runSteps_add _ k 1 _ _ (ih (by omega)), runSteps]
    have h1 : (48 * r + k) % 48 = k := by omega
    have h2 : 48 * r + k < 864 := by omega
    have h3 : k ≠ 47 := by omega
    simp [md2MicroStep, runSteps, h1, h2, h3, List.take_succ_eq_append_getElem (l := List.finRange 48) (i := k)
      (by simp; omega), List.foldl_append, Nat.add_assoc]

/-- The 48 byte-steps of round r are `md2Round`. -/
theorem md2_round (r : Nat) (hr : r < 18) (X : Vector Byte 48) (μ : Micro) (hs : μ.step = 48 * r)
    (hμ : μ.r = r) :
    runSteps md2MicroStep 48 (X, μ) =
      .ok ((md2Round (X, μ.t) r).1, { μ with t := (md2Round (X, μ.t) r).2, r := r + 1, step := 48 * (r + 1) }) := by
  rw [runSteps_add _ 47 1 _ _ (md2_bytes r hr X μ hs 47 le_rfl), runSteps]
  have h1 : (48 * r + 47) % 48 = 47 := by omega
  have h2 : 48 * r + 47 < 864 := by omega
  have hl : List.finRange 48 = (List.finRange 48).take 47 ++ [47] := by decide
  have hfold : (List.finRange 48).foldl md2RoundByte (X, μ.t) =
      md2RoundByte (((List.finRange 48).take 47).foldl md2RoundByte (X, μ.t)) 47 := by
    conv_lhs => rw [hl]
    simp [List.foldl_append]
  simp only [md2MicroStep, runSteps, h1, h2, hμ, md2Round, hfold, if_true]
  rfl

/-- n rounds of byte-steps are the fold of `md2Round`. -/
theorem md2_rounds (X : Vector Byte 48) (μ : Micro) (hs : μ.step = 0) (hμ : μ.r = 0) (n : Nat) (hn : n ≤ 18) :
    runSteps md2MicroStep (48 * n) (X, μ) =
      .ok (((List.range n).foldl md2Round (X, μ.t)).1,
        { μ with t := ((List.range n).foldl md2Round (X, μ.t)).2, r := n, step := 48 * n }) := by
  induction n with
  | zero =>
    obtain ⟨⟩ := μ
    subst hs hμ
    rfl
  | succ n ih =>
    rw [show 48 * (n + 1) = 48 * n + 48 from rfl, runSteps_add _ (48 * n) 48 _ _ (ih (by omega)),
      md2_round n (by omega) _ _ rfl rfl]
    simp only [List.range_succ, List.foldl_append, List.foldl_cons, List.foldl_nil, Nat.mul_succ]

/-- The MD2 engine computes `md2_compress`, whatever the micro-state held before. -/
theorem md2Engine_eq (μ : Micro) (X : Vector Byte 48) (B : Vector Byte 16) :
    md2Engine μ X B = .ok (md2Compress X B) := by
  have e : (864 : Nat) = 48 * 18 := by norm_num
  unfold md2Engine md2Compress
  rw [e, md2_rounds (md2Load X B) { μ with t := 0, r := 0, step := 0 } rfl rfl 18 le_rfl]

theorem md2EngineAbsorb_eq (μ : Micro) (h : AlgoState) (B : Vector Byte 16) :
    md2EngineAbsorb μ h B = .ok (md2Absorb h B) := by
  rw [md2EngineAbsorb, md2Engine_eq]
  rfl

theorem md2EngineFinal_eq (μ : Micro) (h : AlgoState) (tail : List Byte) :
    md2EngineFinal μ h tail = .ok (md2Final h tail) := by
  unfold md2EngineFinal md2Final
  generalize blockAt 16 (padTailMd2 tail) 0 = B
  rw [md2EngineAbsorb_eq]
  generalize md2Absorb h B = h'
  simp only [md2Engine_eq]

end Sys2Proof.Machine
end

