-- ==== Sys2Proof/Laws/State.lean ====
section
/-! SUPPORT. One lemma per field per update of the state, so that no later proof unfolds a record update. -/

namespace Sys2Proof.Machine

/-! ### `clearErrors` -/

@[simp] theorem clearErrors_busy (s : State) : (clearErrors s).busy = s.busy := rfl
@[simp] theorem clearErrors_phase (s : State) : (clearErrors s).phase = s.phase := rfl
@[simp] theorem clearErrors_err (s : State) : (clearErrors s).err = false := rfl
@[simp] theorem clearErrors_errCode (s : State) : (clearErrors s).errCode = 0 := rfl
@[simp] theorem clearErrors_alg (s : State) : (clearErrors s).alg = s.alg := rfl
@[simp] theorem clearErrors_ovr (s : State) : (clearErrors s).ovr = false := rfl
@[simp] theorem clearErrors_len (s : State) : (clearErrors s).len = s.len := rfl
@[simp] theorem clearErrors_blk (s : State) : (clearErrors s).blk = s.blk := rfl
@[simp] theorem clearErrors_dig (s : State) : (clearErrors s).dig = s.dig := rfl
@[simp] theorem clearErrors_pend (s : State) : (clearErrors s).pend = s.pend := rfl
@[simp] theorem clearErrors_algo (s : State) : (clearErrors s).algo = s.algo := rfl
@[simp] theorem clearErrors_micro (s : State) : (clearErrors s).micro = s.micro := rfl
@[simp] theorem clearErrors_inputs (s : State) : (clearErrors s).inputs = s.inputs := rfl
@[simp] theorem clearErrors_reads (s : State) : (clearErrors s).reads = s.reads := rfl
@[simp] theorem clearErrors_checks (s : State) : (clearErrors s).checks = s.checks := rfl
@[simp] theorem clearErrors_draws (s : State) : (clearErrors s).draws = s.draws := rfl

/-! ### `clearBusy` -/

@[simp] theorem clearBusy_busy (s : State) : (clearBusy s).busy = false := rfl
@[simp] theorem clearBusy_phase (s : State) : (clearBusy s).phase = s.phase := rfl
@[simp] theorem clearBusy_err (s : State) : (clearBusy s).err = s.err := rfl
@[simp] theorem clearBusy_errCode (s : State) : (clearBusy s).errCode = s.errCode := rfl
@[simp] theorem clearBusy_alg (s : State) : (clearBusy s).alg = s.alg := rfl
@[simp] theorem clearBusy_ovr (s : State) : (clearBusy s).ovr = s.ovr := rfl
@[simp] theorem clearBusy_len (s : State) : (clearBusy s).len = s.len := rfl
@[simp] theorem clearBusy_blk (s : State) : (clearBusy s).blk = s.blk := rfl
@[simp] theorem clearBusy_dig (s : State) : (clearBusy s).dig = s.dig := rfl
@[simp] theorem clearBusy_pend (s : State) : (clearBusy s).pend = s.pend := rfl
@[simp] theorem clearBusy_algo (s : State) : (clearBusy s).algo = s.algo := rfl
@[simp] theorem clearBusy_micro (s : State) : (clearBusy s).micro = s.micro := rfl
@[simp] theorem clearBusy_inputs (s : State) : (clearBusy s).inputs = s.inputs := rfl
@[simp] theorem clearBusy_reads (s : State) : (clearBusy s).reads = s.reads := rfl
@[simp] theorem clearBusy_checks (s : State) : (clearBusy s).checks = s.checks := rfl
@[simp] theorem clearBusy_draws (s : State) : (clearBusy s).draws = s.draws := rfl

/-! ### `scrambleMicro` -/

@[simp] theorem scrambleMicro_busy (s : State) : (scrambleMicro s).busy = s.busy := rfl
@[simp] theorem scrambleMicro_phase (s : State) : (scrambleMicro s).phase = s.phase := rfl
@[simp] theorem scrambleMicro_err (s : State) : (scrambleMicro s).err = s.err := rfl
@[simp] theorem scrambleMicro_errCode (s : State) : (scrambleMicro s).errCode = s.errCode := rfl
@[simp] theorem scrambleMicro_alg (s : State) : (scrambleMicro s).alg = s.alg := rfl
@[simp] theorem scrambleMicro_ovr (s : State) : (scrambleMicro s).ovr = s.ovr := rfl
@[simp] theorem scrambleMicro_len (s : State) : (scrambleMicro s).len = s.len := rfl
@[simp] theorem scrambleMicro_blk (s : State) : (scrambleMicro s).blk = s.blk := rfl
@[simp] theorem scrambleMicro_dig (s : State) : (scrambleMicro s).dig = s.dig := rfl
@[simp] theorem scrambleMicro_pend (s : State) : (scrambleMicro s).pend = s.pend := rfl
@[simp] theorem scrambleMicro_algo (s : State) : (scrambleMicro s).algo = s.algo := rfl
@[simp] theorem scrambleMicro_micro (s : State) : (scrambleMicro s).micro = unspecifiedMicro s.draws := rfl
@[simp] theorem scrambleMicro_inputs (s : State) : (scrambleMicro s).inputs = s.inputs := rfl
@[simp] theorem scrambleMicro_reads (s : State) : (scrambleMicro s).reads = s.reads := rfl
@[simp] theorem scrambleMicro_checks (s : State) : (scrambleMicro s).checks = s.checks := rfl
@[simp] theorem scrambleMicro_draws (s : State) : (scrambleMicro s).draws = s.draws + microDraws := rfl

/-! ### `startMessage` -/

@[simp] theorem startMessage_busy (code : BitVec 3) (h : AlgoState) (s : State) : (startMessage code h s).busy = s.busy := rfl
@[simp] theorem startMessage_phase (code : BitVec 3) (h : AlgoState) (s : State) : (startMessage code h s).phase = phaseAbsorb := rfl
@[simp] theorem startMessage_err (code : BitVec 3) (h : AlgoState) (s : State) : (startMessage code h s).err = s.err := rfl
@[simp] theorem startMessage_errCode (code : BitVec 3) (h : AlgoState) (s : State) : (startMessage code h s).errCode = s.errCode := rfl
@[simp] theorem startMessage_alg (code : BitVec 3) (h : AlgoState) (s : State) : (startMessage code h s).alg = code := rfl
@[simp] theorem startMessage_ovr (code : BitVec 3) (h : AlgoState) (s : State) : (startMessage code h s).ovr = s.ovr := rfl
@[simp] theorem startMessage_len (code : BitVec 3) (h : AlgoState) (s : State) : (startMessage code h s).len = 0 := rfl
@[simp] theorem startMessage_blk (code : BitVec 3) (h : AlgoState) (s : State) : (startMessage code h s).blk = s.blk := rfl
@[simp] theorem startMessage_dig (code : BitVec 3) (h : AlgoState) (s : State) : (startMessage code h s).dig = Vector.replicate 20 0 := rfl
@[simp] theorem startMessage_pend (code : BitVec 3) (h : AlgoState) (s : State) : (startMessage code h s).pend = s.pend := rfl
@[simp] theorem startMessage_algo (code : BitVec 3) (h : AlgoState) (s : State) : (startMessage code h s).algo = h := rfl
@[simp] theorem startMessage_micro (code : BitVec 3) (h : AlgoState) (s : State) : (startMessage code h s).micro = s.micro := rfl
@[simp] theorem startMessage_inputs (code : BitVec 3) (h : AlgoState) (s : State) : (startMessage code h s).inputs = s.inputs := rfl
@[simp] theorem startMessage_reads (code : BitVec 3) (h : AlgoState) (s : State) : (startMessage code h s).reads = s.reads := rfl
@[simp] theorem startMessage_checks (code : BitVec 3) (h : AlgoState) (s : State) : (startMessage code h s).checks = s.checks := rfl
@[simp] theorem startMessage_draws (code : BitVec 3) (h : AlgoState) (s : State) : (startMessage code h s).draws = s.draws := rfl

/-! ### `afterBlock` -/

@[simp] theorem afterBlock_busy (s : State) (h : AlgoState) : (afterBlock s h).busy = s.busy := rfl
@[simp] theorem afterBlock_phase (s : State) (h : AlgoState) : (afterBlock s h).phase = s.phase := rfl
@[simp] theorem afterBlock_err (s : State) (h : AlgoState) : (afterBlock s h).err = s.err := rfl
@[simp] theorem afterBlock_errCode (s : State) (h : AlgoState) : (afterBlock s h).errCode = s.errCode := rfl
@[simp] theorem afterBlock_alg (s : State) (h : AlgoState) : (afterBlock s h).alg = s.alg := rfl
@[simp] theorem afterBlock_ovr (s : State) (h : AlgoState) : (afterBlock s h).ovr = s.ovr := rfl
@[simp] theorem afterBlock_len (s : State) (h : AlgoState) : (afterBlock s h).len = s.len + blockLength s.alg := rfl
@[simp] theorem afterBlock_blk (s : State) (h : AlgoState) : (afterBlock s h).blk = s.blk := rfl
@[simp] theorem afterBlock_dig (s : State) (h : AlgoState) : (afterBlock s h).dig = s.dig := rfl
@[simp] theorem afterBlock_pend (s : State) (h : AlgoState) : (afterBlock s h).pend = s.pend := rfl
@[simp] theorem afterBlock_algo (s : State) (h : AlgoState) : (afterBlock s h).algo = h := rfl
@[simp] theorem afterBlock_micro (s : State) (h : AlgoState) : (afterBlock s h).micro = unspecifiedMicro s.draws := rfl
@[simp] theorem afterBlock_inputs (s : State) (h : AlgoState) : (afterBlock s h).inputs = s.inputs := rfl
@[simp] theorem afterBlock_reads (s : State) (h : AlgoState) : (afterBlock s h).reads = s.reads := rfl
@[simp] theorem afterBlock_checks (s : State) (h : AlgoState) : (afterBlock s h).checks = s.checks := rfl
@[simp] theorem afterBlock_draws (s : State) (h : AlgoState) : (afterBlock s h).draws = s.draws + microDraws := rfl

/-! ### `afterFinal` -/

@[simp] theorem afterFinal_busy (s : State) (n : Length) (h : AlgoState) : (afterFinal s n h).busy = s.busy := rfl
@[simp] theorem afterFinal_phase (s : State) (n : Length) (h : AlgoState) : (afterFinal s n h).phase = phaseDone := rfl
@[simp] theorem afterFinal_err (s : State) (n : Length) (h : AlgoState) : (afterFinal s n h).err = s.err := rfl
@[simp] theorem afterFinal_errCode (s : State) (n : Length) (h : AlgoState) : (afterFinal s n h).errCode = s.errCode := rfl
@[simp] theorem afterFinal_alg (s : State) (n : Length) (h : AlgoState) : (afterFinal s n h).alg = s.alg := rfl
@[simp] theorem afterFinal_ovr (s : State) (n : Length) (h : AlgoState) : (afterFinal s n h).ovr = s.ovr := rfl
@[simp] theorem afterFinal_len (s : State) (n : Length) (h : AlgoState) : (afterFinal s n h).len = n := rfl
@[simp] theorem afterFinal_blk (s : State) (n : Length) (h : AlgoState) : (afterFinal s n h).blk = s.blk := rfl
@[simp] theorem afterFinal_dig (s : State) (n : Length) (h : AlgoState) : (afterFinal s n h).dig = digestOf s.alg h := rfl
@[simp] theorem afterFinal_pend (s : State) (n : Length) (h : AlgoState) : (afterFinal s n h).pend = s.pend := rfl
@[simp] theorem afterFinal_algo (s : State) (n : Length) (h : AlgoState) : (afterFinal s n h).algo = h := rfl
@[simp] theorem afterFinal_micro (s : State) (n : Length) (h : AlgoState) : (afterFinal s n h).micro = unspecifiedMicro s.draws := rfl
@[simp] theorem afterFinal_inputs (s : State) (n : Length) (h : AlgoState) : (afterFinal s n h).inputs = s.inputs := rfl
@[simp] theorem afterFinal_reads (s : State) (n : Length) (h : AlgoState) : (afterFinal s n h).reads = s.reads := rfl
@[simp] theorem afterFinal_checks (s : State) (n : Length) (h : AlgoState) : (afterFinal s n h).checks = s.checks := rfl
@[simp] theorem afterFinal_draws (s : State) (n : Length) (h : AlgoState) : (afterFinal s n h).draws = s.draws + microDraws := rfl

/-! ### `resetBlock` -/

@[simp] theorem resetBlock_busy (s : State) : (resetBlock s).busy = false := rfl
@[simp] theorem resetBlock_phase (s : State) : (resetBlock s).phase = 0 := rfl
@[simp] theorem resetBlock_err (s : State) : (resetBlock s).err = false := rfl
@[simp] theorem resetBlock_errCode (s : State) : (resetBlock s).errCode = 0 := rfl
@[simp] theorem resetBlock_alg (s : State) : (resetBlock s).alg = 0 := rfl
@[simp] theorem resetBlock_ovr (s : State) : (resetBlock s).ovr = false := rfl
@[simp] theorem resetBlock_len (s : State) : (resetBlock s).len = 0 := rfl
@[simp] theorem resetBlock_blk (s : State) : (resetBlock s).blk = Vector.replicate 64 0 := rfl
@[simp] theorem resetBlock_dig (s : State) : (resetBlock s).dig = Vector.replicate 20 0 := rfl
@[simp] theorem resetBlock_pend (s : State) : (resetBlock s).pend = Config.draw32 s.draws := rfl
@[simp] theorem resetBlock_algo (s : State) : (resetBlock s).algo = unspecifiedAlgo (s.draws + 1) := rfl
@[simp] theorem resetBlock_micro (s : State) : (resetBlock s).micro = unspecifiedMicro (s.draws + 1 + algoDraws) := rfl
@[simp] theorem resetBlock_inputs (s : State) : (resetBlock s).inputs = s.inputs := rfl
@[simp] theorem resetBlock_reads (s : State) : (resetBlock s).reads = s.reads := rfl
@[simp] theorem resetBlock_checks (s : State) : (resetBlock s).checks = s.checks := rfl
@[simp] theorem resetBlock_draws (s : State) : (resetBlock s).draws = s.draws + 1 + algoDraws + microDraws := rfl

/-! ### `busRead` -/

@[simp] theorem busRead_busy (r : WindowReg) (s : State) : (busRead r s).busy = s.busy := rfl
@[simp] theorem busRead_phase (r : WindowReg) (s : State) : (busRead r s).phase = s.phase := rfl
@[simp] theorem busRead_err (r : WindowReg) (s : State) : (busRead r s).err = s.err := rfl
@[simp] theorem busRead_errCode (r : WindowReg) (s : State) : (busRead r s).errCode = s.errCode := rfl
@[simp] theorem busRead_alg (r : WindowReg) (s : State) : (busRead r s).alg = s.alg := rfl
@[simp] theorem busRead_ovr (r : WindowReg) (s : State) : (busRead r s).ovr = s.ovr := rfl
@[simp] theorem busRead_len (r : WindowReg) (s : State) : (busRead r s).len = s.len := rfl
@[simp] theorem busRead_blk (r : WindowReg) (s : State) : (busRead r s).blk = s.blk := rfl
@[simp] theorem busRead_dig (r : WindowReg) (s : State) : (busRead r s).dig = s.dig := rfl
@[simp] theorem busRead_pend (r : WindowReg) (s : State) : (busRead r s).pend = s.pend := rfl
@[simp] theorem busRead_algo (r : WindowReg) (s : State) : (busRead r s).algo = s.algo := rfl
@[simp] theorem busRead_micro (r : WindowReg) (s : State) : (busRead r s).micro = s.micro := rfl
@[simp] theorem busRead_inputs (r : WindowReg) (s : State) : (busRead r s).inputs = s.inputs := rfl
@[simp] theorem busRead_reads (r : WindowReg) (s : State) : (busRead r s).reads = readValue r s :: s.reads := rfl
@[simp] theorem busRead_checks (r : WindowReg) (s : State) : (busRead r s).checks = s.checks := rfl
@[simp] theorem busRead_draws (r : WindowReg) (s : State) : (busRead r s).draws = if readIsDraw r s then s.draws + 1 else s.draws := rfl

/-! ### `withPending` -/

@[simp] theorem withPending_busy (s : State) (w : Word) : (withPending s w).busy = true := rfl
@[simp] theorem withPending_phase (s : State) (w : Word) : (withPending s w).phase = s.phase := rfl
@[simp] theorem withPending_err (s : State) (w : Word) : (withPending s w).err = s.err := rfl
@[simp] theorem withPending_errCode (s : State) (w : Word) : (withPending s w).errCode = s.errCode := rfl
@[simp] theorem withPending_alg (s : State) (w : Word) : (withPending s w).alg = s.alg := rfl
@[simp] theorem withPending_ovr (s : State) (w : Word) : (withPending s w).ovr = s.ovr := rfl
@[simp] theorem withPending_len (s : State) (w : Word) : (withPending s w).len = s.len := rfl
@[simp] theorem withPending_blk (s : State) (w : Word) : (withPending s w).blk = s.blk := rfl
@[simp] theorem withPending_dig (s : State) (w : Word) : (withPending s w).dig = s.dig := rfl
@[simp] theorem withPending_pend (s : State) (w : Word) : (withPending s w).pend = w := rfl
@[simp] theorem withPending_algo (s : State) (w : Word) : (withPending s w).algo = s.algo := rfl
@[simp] theorem withPending_micro (s : State) (w : Word) : (withPending s w).micro = s.micro := rfl
@[simp] theorem withPending_inputs (s : State) (w : Word) : (withPending s w).inputs = [] := rfl
@[simp] theorem withPending_reads (s : State) (w : Word) : (withPending s w).reads = s.reads := rfl
@[simp] theorem withPending_checks (s : State) (w : Word) : (withPending s w).checks = s.checks := rfl
@[simp] theorem withPending_draws (s : State) (w : Word) : (withPending s w).draws = s.draws := rfl

/-! ### `raiseError` -/

@[simp] theorem raiseError_busy (e : CommandError) (s : State) : (raiseError e s).busy = s.busy := by
  unfold raiseError; split <;> simp_all
@[simp] theorem raiseError_phase (e : CommandError) (s : State) : (raiseError e s).phase = s.phase := by
  unfold raiseError; split <;> simp_all
@[simp] theorem raiseError_err (e : CommandError) (s : State) : (raiseError e s).err = true := by
  unfold raiseError; split <;> simp_all
@[simp] theorem raiseError_errCode (e : CommandError) (s : State) : (raiseError e s).errCode = if s.err then s.errCode else errorCode e := by
  unfold raiseError; split <;> simp_all
@[simp] theorem raiseError_alg (e : CommandError) (s : State) : (raiseError e s).alg = s.alg := by
  unfold raiseError; split <;> simp_all
@[simp] theorem raiseError_ovr (e : CommandError) (s : State) : (raiseError e s).ovr = s.ovr := by
  unfold raiseError; split <;> simp_all
@[simp] theorem raiseError_len (e : CommandError) (s : State) : (raiseError e s).len = s.len := by
  unfold raiseError; split <;> simp_all
@[simp] theorem raiseError_blk (e : CommandError) (s : State) : (raiseError e s).blk = s.blk := by
  unfold raiseError; split <;> simp_all
@[simp] theorem raiseError_dig (e : CommandError) (s : State) : (raiseError e s).dig = s.dig := by
  unfold raiseError; split <;> simp_all
@[simp] theorem raiseError_pend (e : CommandError) (s : State) : (raiseError e s).pend = s.pend := by
  unfold raiseError; split <;> simp_all
@[simp] theorem raiseError_algo (e : CommandError) (s : State) : (raiseError e s).algo = s.algo := by
  unfold raiseError; split <;> simp_all
@[simp] theorem raiseError_micro (e : CommandError) (s : State) : (raiseError e s).micro = s.micro := by
  unfold raiseError; split <;> simp_all
@[simp] theorem raiseError_inputs (e : CommandError) (s : State) : (raiseError e s).inputs = s.inputs := by
  unfold raiseError; split <;> simp_all
@[simp] theorem raiseError_reads (e : CommandError) (s : State) : (raiseError e s).reads = s.reads := by
  unfold raiseError; split <;> simp_all
@[simp] theorem raiseError_checks (e : CommandError) (s : State) : (raiseError e s).checks = s.checks := by
  unfold raiseError; split <;> simp_all
@[simp] theorem raiseError_draws (e : CommandError) (s : State) : (raiseError e s).draws = s.draws := by
  unfold raiseError; split <;> simp_all

/-! ### `busWrite` -/

@[simp] theorem busWrite_phase (r : WindowReg) (v : Word) (s : State) : (busWrite r v s).phase = s.phase := by
  unfold busWrite; split <;> try split
  all_goals rfl
@[simp] theorem busWrite_err (r : WindowReg) (v : Word) (s : State) : (busWrite r v s).err = s.err := by
  unfold busWrite; split <;> try split
  all_goals rfl
@[simp] theorem busWrite_errCode (r : WindowReg) (v : Word) (s : State) : (busWrite r v s).errCode = s.errCode := by
  unfold busWrite; split <;> try split
  all_goals rfl
@[simp] theorem busWrite_alg (r : WindowReg) (v : Word) (s : State) : (busWrite r v s).alg = s.alg := by
  unfold busWrite; split <;> try split
  all_goals rfl
@[simp] theorem busWrite_len (r : WindowReg) (v : Word) (s : State) : (busWrite r v s).len = s.len := by
  unfold busWrite; split <;> try split
  all_goals rfl
@[simp] theorem busWrite_dig (r : WindowReg) (v : Word) (s : State) : (busWrite r v s).dig = s.dig := by
  unfold busWrite; split <;> try split
  all_goals rfl
@[simp] theorem busWrite_algo (r : WindowReg) (v : Word) (s : State) : (busWrite r v s).algo = s.algo := by
  unfold busWrite; split <;> try split
  all_goals rfl
@[simp] theorem busWrite_micro (r : WindowReg) (v : Word) (s : State) : (busWrite r v s).micro = s.micro := by
  unfold busWrite; split <;> try split
  all_goals rfl
@[simp] theorem busWrite_inputs (r : WindowReg) (v : Word) (s : State) : (busWrite r v s).inputs = s.inputs := by
  unfold busWrite; split <;> try split
  all_goals rfl
@[simp] theorem busWrite_reads (r : WindowReg) (v : Word) (s : State) : (busWrite r v s).reads = s.reads := by
  unfold busWrite; split <;> try split
  all_goals rfl
@[simp] theorem busWrite_checks (r : WindowReg) (v : Word) (s : State) : (busWrite r v s).checks = s.checks := by
  unfold busWrite; split <;> try split
  all_goals rfl
@[simp] theorem busWrite_draws (r : WindowReg) (v : Word) (s : State) : (busWrite r v s).draws = s.draws := by
  unfold busWrite; split <;> try split
  all_goals rfl

end Sys2Proof.Machine
end

