-- ==== Sys2Proof/Laws/Ops.lean ====
section
/-! SUPPORT. For each shared operation, once, everything it can do; and from these what a command and a step
can do. Later proofs cite these lemmas and do not unfold the operations. -/

namespace Sys2Proof.Machine

/-! ### Errors and gates -/

/-- `raise E` with an error pending changes nothing (60_exceptions.md R321). -/
theorem raiseError_of_err {s : State} (e : CommandError) (h : s.err = true) : raiseError e s = s := by
  simp [raiseError, h]

/-- `raise E` with no error pending (R321). -/
theorem raiseError_of_ok {s : State} (e : CommandError) (h : s.err = false) :
    raiseError e s = { s with err := true, errCode := errorCode e } := by
  simp [raiseError, h]

theorem throughErrorGate_of_err {s : State} (o : Outcome) (h : s.err = true) :
    throughErrorGate s o = .next s := by
  simp [throughErrorGate, h]

theorem throughErrorGate_of_ok {s : State} (o : Outcome) (h : s.err = false) : throughErrorGate s o = o := by
  simp [throughErrorGate, h]

/-- What passing the error gate can answer. -/
theorem throughErrorGate_next {s t : State} {o : Outcome} (h : throughErrorGate s o = .next t) :
    (s.err = true ∧ t = s) ∨ (s.err = false ∧ o = .next t) := by
  unfold throughErrorGate at h
  split at h
  · left; cases h; exact ⟨‹_›, rfl⟩
  · right; exact ⟨by simpa using ‹¬s.err = true›, h⟩

/-- What the phase checks can answer. -/
theorem inAbsorb_next {s t : State} {o : Outcome} (h : inAbsorb s o = .next t) :
    (s.phase = phaseIdle ∧ t = raiseError .notInit s) ∨ (s.phase = phaseDone ∧ t = raiseError .alreadyFinal s) ∨
      (s.phase = phaseAbsorb ∧ o = .next t) := by
  unfold inAbsorb at h
  split at h
  · cases h; exact .inl ⟨‹_›, rfl⟩
  · split at h
    · cases h; exact .inr (.inl ⟨‹_›, rfl⟩)
    · split at h
      · exact .inr (.inr ⟨‹_›, h⟩)
      · cases h

theorem inAbsorb_idle {s : State} (o : Outcome) (h : s.phase = phaseIdle) :
    inAbsorb s o = .next (raiseError .notInit s) := by
  simp [inAbsorb, h]

theorem inAbsorb_done {s : State} (o : Outcome) (h : s.phase = phaseDone) :
    inAbsorb s o = .next (raiseError .alreadyFinal s) := by
  simp [inAbsorb, h, phaseDone, phaseIdle]

theorem inAbsorb_absorb {s : State} (o : Outcome) (h : s.phase = phaseAbsorb) : inAbsorb s o = o := by
  simp [inAbsorb, h, phaseAbsorb, phaseDone, phaseIdle]

/-! ### Folding -/

/-- An ALG code with an engine is one of four. -/
theorem alg_cases {code : BitVec 3} (h : code.toNat ≤ 3) :
    code = algMd2 ∨ code = algMd4 ∨ code = algMd5 ∨ code = algSha1 := by
  revert h; revert code; decide

/-- The fold of a block never faults, for a code with an engine. -/
theorem absorbBlock_eq {code : BitVec 3} (h : code.toNat ≤ 3) (μ : Micro) (blk : Vector Byte 64) (k : AlgoState) :
    absorbBlock code μ blk k = .ok (blockFold code blk k) := by
  rcases alg_cases h with rfl | rfl | rfl | rfl <;>
    simp [absorbBlock, blockFold, algMd2, algMd4, algMd5, algSha1, md2EngineAbsorb_eq, md4Engine_eq, md5Engine_eq,
      sha1Engine_eq]

/-- The fold of a tail never faults, for a code with an engine. -/
theorem absorbTail_eq {code : BitVec 3} (h : code.toNat ≤ 3) (μ : Micro) (tail : List Byte) (len : Length)
    (k : AlgoState) : absorbTail code μ tail len k = .ok (tailFold code tail len k) := by
  rcases alg_cases h with rfl | rfl | rfl | rfl
  · simp [absorbTail, tailFold, algMd2, md2EngineFinal_eq]
  · simp [absorbTail, tailFold, algMd2, algMd4, foldBlocks_eq _ _ (md4Engine_eq μ)]
  · simp [absorbTail, tailFold, algMd2, algMd4, algMd5, foldBlocks_eq _ _ (md5Engine_eq μ)]
  · simp [absorbTail, tailFold, algMd2, algMd4, algMd5, algSha1, foldBlocks_eq _ _ (sha1Engine_eq μ)]

/-- An ALG code without an engine faults in the fold of a block. -/
theorem absorbBlock_ok {code : BitVec 3} {μ : Micro} {blk : Vector Byte 64} {k h : AlgoState}
    (ha : absorbBlock code μ blk k = .ok h) : code.toNat ≤ 3 ∧ h = blockFold code blk k := by
  by_cases hc : code.toNat ≤ 3
  · rw [absorbBlock_eq hc] at ha
    cases ha
    exact ⟨hc, rfl⟩
  · have : code ≠ 0#3 ∧ code ≠ 1#3 ∧ code ≠ 2#3 ∧ code ≠ 3#3 := by
      refine ⟨?_, ?_, ?_, ?_⟩ <;> rintro rfl <;> exact hc (by decide)
    simp [absorbBlock, algMd2, algMd4, algMd5, algSha1, this] at ha

/-- An ALG code without an engine faults in the fold of a tail. -/
theorem absorbTail_ok {code : BitVec 3} {μ : Micro} {tail : List Byte} {len : Length} {k h : AlgoState}
    (ha : absorbTail code μ tail len k = .ok h) : code.toNat ≤ 3 ∧ h = tailFold code tail len k := by
  by_cases hc : code.toNat ≤ 3
  · rw [absorbTail_eq hc] at ha
    cases ha
    exact ⟨hc, rfl⟩
  · have : code ≠ 0#3 ∧ code ≠ 1#3 ∧ code ≠ 2#3 ∧ code ≠ 3#3 := by
      refine ⟨?_, ?_, ?_, ?_⟩ <;> rintro rfl <;> exact hc (by decide)
    simp [absorbTail, algMd2, algMd4, algMd5, algSha1, this] at ha

theorem foldBlock_eq {s : State} (h : s.alg.toNat ≤ 3) :
    foldBlock s = .next (afterBlock s (blockFold s.alg s.blk s.algo)) := by
  rw [foldBlock, absorbBlock_eq h]

/-- What the fold of BLOCK can answer. -/
theorem foldBlock_next {s t : State} (h : foldBlock s = .next t) :
    s.alg.toNat ≤ 3 ∧ t = afterBlock s (blockFold s.alg s.blk s.algo) := by
  unfold foldBlock at h
  split at h
  · obtain ⟨hc, rfl⟩ := absorbBlock_ok ‹_›
    cases h
    exact ⟨hc, rfl⟩
  · cases h

theorem finishMessage_eq {s : State} (tail : BitVec 6) (h : s.alg.toNat ≤ 3)
    (hn : ¬(s.alg = algMd2 ∧ 16 ≤ tailCount tail)) :
    finishMessage tail s = .next (afterFinal s (s.len + tailLength tail)
      (tailFold s.alg (tailBytes tail s) (s.len + tailLength tail) s.algo)) := by
  rw [finishMessage, if_neg hn, absorbTail_eq h]

/-- What FINAL past its phase checks can answer. -/
theorem finishMessage_next {s t : State} {tail : BitVec 6} (h : finishMessage tail s = .next t) :
    (s.alg = algMd2 ∧ 16 ≤ tailCount tail ∧ t = raiseError .badTail s) ∨
      (s.alg.toNat ≤ 3 ∧ ¬(s.alg = algMd2 ∧ 16 ≤ tailCount tail) ∧
        t = afterFinal s (s.len + tailLength tail)
          (tailFold s.alg (tailBytes tail s) (s.len + tailLength tail) s.algo)) := by
  unfold finishMessage at h
  split at h
  · rename_i hb
    cases h
    exact .inl ⟨hb.1, hb.2, rfl⟩
  · rename_i hb
    split at h
    · obtain ⟨hc, rfl⟩ := absorbTail_ok ‹_›
      cases h
      exact .inr ⟨hc, hb, rfl⟩
    · cases h

/-! ### What a command can do -/

/-- The ways a command reaches a next state. -/
inductive ExecCase (s : State) : Instr → State → Prop where
  /-- NOP. -/
  | nop : ExecCase s .nop s
  /-- CLRERR. -/
  | clrerr : ExecCase s .clrerr (clearErrors s)
  /-- SRST. -/
  | srst : ExecCase s .srst (resetBlock s)
  /-- INIT, BLOCK or FINAL dropped by the error gate. -/
  | dropped {i : Instr} (he : s.err = true) (hi : gatedByError i = true) : ExecCase s i s
  /-- INIT, BLOCK or FINAL that raises an error. -/
  | raised {i : Instr} (e : CommandError) (he : s.err = false) (hi : gatedByError i = true) :
      ExecCase s i (raiseError e s)
  /-- INIT of an implemented algorithm. -/
  | started (code : BitVec 3) (he : s.err = false) (hc : code.toNat ≤ 3) :
      ExecCase s (initOfCode code) (startMessage code (initialAlgo code s.algo) s)
  /-- BLOCK in ABSORB. -/
  | folded (he : s.err = false) (hp : s.phase = phaseAbsorb) (hc : s.alg.toNat ≤ 3) :
      ExecCase s .block (afterBlock s (blockFold s.alg s.blk s.algo))
  /-- FINAL in ABSORB with a legal tail. -/
  | finished (tail : BitVec 6) (he : s.err = false) (hp : s.phase = phaseAbsorb) (hc : s.alg.toNat ≤ 3)
      (hn : ¬(s.alg = algMd2 ∧ 16 ≤ tailCount tail)) :
      ExecCase s (.final tail) (afterFinal s (s.len + tailLength tail)
        (tailFold s.alg (tailBytes tail s) (s.len + tailLength tail) s.algo))

/-- INIT of an implemented code, through the error gate. -/
theorem init_case {s t : State} (code : BitVec 3) (hc : code.toNat ≤ 3)
    (hi : gatedByError (initOfCode code) = true)
    (h : throughErrorGate s (.next (doInit code s)) = .next t) : ExecCase s (initOfCode code) t := by
  obtain ⟨he, rfl⟩ | ⟨he, h⟩ := throughErrorGate_next h
  · exact .dropped he hi
  · cases h
    rw [doInit, if_neg (by omega)]
    exact .started code he hc

/-- INIT of a reserved code, through the error gate. -/
theorem init_reserved_case {s t : State} {i : Instr} (code : BitVec 3) (hc : 4 ≤ code.toNat)
    (hi : gatedByError i = true)
    (h : throughErrorGate s (.next (doInit code s)) = .next t) : ExecCase s i t := by
  obtain ⟨he, rfl⟩ | ⟨he, h⟩ := throughErrorGate_next h
  · exact .dropped he hi
  · cases h
    rw [doInit, if_pos hc]
    exact .raised _ he hi

/-- Everything a command that reaches a next state can have done. -/
theorem exec_cases {i : Instr} {s t : State} (h : exec i s = .next t) : ExecCase s i t := by
  cases i with
  | nop => cases h; exact .nop
  | clrerr => cases h; exact .clrerr
  | srst => cases h; exact .srst
  | initMd2 => exact init_case 0 (by decide) rfl h
  | initMd4 => exact init_case 1 (by decide) rfl h
  | initMd5 => exact init_case 2 (by decide) rfl h
  | initSha1 => exact init_case 3 (by decide) rfl h
  | initSha224 => exact init_reserved_case 4 (by decide) rfl h
  | initSha256 => exact init_reserved_case 5 (by decide) rfl h
  | initSha384 => exact init_reserved_case 6 (by decide) rfl h
  | initSha512 => exact init_reserved_case 7 (by decide) rfl h
  | block =>
    obtain ⟨he, rfl⟩ | ⟨he, h⟩ := throughErrorGate_next h
    · exact .dropped he rfl
    · obtain ⟨_, rfl⟩ | ⟨_, rfl⟩ | ⟨hp, h⟩ := inAbsorb_next h
      · exact .raised _ he rfl
      · exact .raised _ he rfl
      · obtain ⟨hc, rfl⟩ := foldBlock_next h
        exact .folded he hp hc
  | final tail =>
    obtain ⟨he, rfl⟩ | ⟨he, h⟩ := throughErrorGate_next h
    · exact .dropped he rfl
    · obtain ⟨_, rfl⟩ | ⟨_, rfl⟩ | ⟨hp, h⟩ := inAbsorb_next h
      · exact .raised _ he rfl
      · exact .raised _ he rfl
      · obtain ⟨_, _, rfl⟩ | ⟨hc, hn, rfl⟩ := finishMessage_next h
        · exact .raised _ he rfl
        · exact .finished tail he hp hc hn

/-! ### What a step can do -/

/-- What an engine step can answer: the command's next state with BUSY cleared. -/
theorem engineStep_next {s t : State} (h : engineStep s = .next t) :
    ∃ u, executeWord s.pend s = .next u ∧ t = clearBusy u := by
  unfold engineStep retire at h
  split at h
  · cases h; exact ⟨_, ‹_›, rfl⟩
  · cases h
  · cases h

/-- What executing a word can answer. -/
theorem executeWord_next {s t : State} {w : Word} (h : executeWord w s = .next t) :
    ((∃ e, decode w = .error e) ∧ t = raiseError .illegalCmd s) ∨
      ∃ i, decode w = .ok i ∧ ExecCase s i t := by
  unfold executeWord at h
  split at h
  · cases h; exact .inl ⟨⟨_, ‹_›⟩, rfl⟩
  · exact .inr ⟨_, ‹_›, exec_cases h⟩

/-- What a move of the outside can answer. -/
theorem hostStep_next {op : HostOp} {s t : State} (h : hostStep op s = .next t) :
    (∃ width off r, op = .read width off ∧ admitted width off = some r ∧ t = busRead r s) ∨
      (∃ width off v r, op = .write width off v ∧ admitted width off = some r ∧ t = busWrite r v s) ∨
      (op = .wait ∧ t = busRead .status s) ∨
      (op = .checkErr ∧ t = { busRead .status s with checks := errorIn (statusWord s) :: s.checks }) ∨
      (op = .reset ∧ t = resetBlock s) := by
  cases op with
  | read width off =>
    simp only [hostStep] at h
    split at h
    · cases h; exact .inl ⟨_, _, _, rfl, ‹_›, rfl⟩
    · cases h
  | write width off v =>
    simp only [hostStep] at h
    split at h
    · cases h; exact .inr (.inl ⟨_, _, _, _, rfl, ‹_›, rfl⟩)
    · cases h
  | wait => cases h; exact .inr (.inr (.inl ⟨rfl, rfl⟩))
  | checkErr => cases h; exact .inr (.inr (.inr (.inl ⟨rfl, rfl⟩)))
  | reset => cases h; exact .inr (.inr (.inr (.inr ⟨rfl, rfl⟩)))

/-- Everything a step that reaches a next state can have been. -/
theorem step_cases {s t : State} (h : step s = .next t) :
    fieldsInRange s = true ∧
      ((engineMoves s = true ∧ ∃ u, executeWord s.pend s = .next u ∧ t = clearBusy u) ∨
        (engineMoves s = false ∧ s.inputs = [] ∧ t = s) ∨
        (engineMoves s = false ∧ ∃ p, nextInput s.inputs = some p ∧
          hostStep p.1.op { s with inputs := inputsAfter p.1 p.2 s } = .next t)) := by
  unfold step at h
  split at h
  · refine ⟨‹_›, ?_⟩
    split at h
    · exact .inl ⟨‹_›, engineStep_next h⟩
    · rename_i hm
      have hm : engineMoves s = false := by simpa using hm
      unfold inputStep at h
      split at h
      · exact .inr (.inr ⟨hm, _, ‹_›, h⟩)
      · split at h
        · cases h; exact .inr (.inl ⟨hm, List.isEmpty_iff.mp ‹_›, rfl⟩)
        · cases h
  · cases h

/-! ### Fields in range -/

/-- What `fieldsInRange` says, field by field. -/
theorem fieldsInRange_iff {s : State} :
    fieldsInRange s = true ↔ s.phase ≠ 3 ∧ s.errCode.toNat ≤ 5 ∧ s.alg.toNat ≤ 3 := by
  simp [fieldsInRange, and_assoc]

/-- `fieldsInRange` looks at three fields only. -/
theorem fieldsInRange_congr {s t : State} (h1 : t.phase = s.phase) (h2 : t.errCode = s.errCode)
    (h3 : t.alg = s.alg) : fieldsInRange t = fieldsInRange s := by
  simp [fieldsInRange, h1, h2, h3]

/-- A phase that is produced is one of three (10_state.md R30). -/
theorem phase_cases {p : BitVec 2} (h : p ≠ 3) : p = phaseIdle ∨ p = phaseDone ∨ p = phaseAbsorb := by
  revert h; revert p; decide

/-- Every command reaches a next state, with PHASE and ALG in range. -/
theorem exec_total {s : State} (hp : s.phase ≠ 3) (ha : s.alg.toNat ≤ 3) (i : Instr) : ∃ t, exec i s = .next t := by
  have gate : ∀ u, ∃ t, throughErrorGate s (.next u) = .next t := by
    intro u
    unfold throughErrorGate
    split <;> exact ⟨_, rfl⟩
  have absorb : ∀ o, (∃ t, o = Host.Outcome.next t) → ∃ t, throughErrorGate s (inAbsorb s o) = .next t := by
    rintro o ⟨u, rfl⟩
    rcases phase_cases hp with h | h | h
    · rw [inAbsorb_idle _ h]; exact gate _
    · rw [inAbsorb_done _ h]; exact gate _
    · rw [inAbsorb_absorb _ h]; exact gate _
  cases i with
  | nop => exact ⟨_, rfl⟩
  | clrerr => exact ⟨_, rfl⟩
  | srst => exact ⟨_, rfl⟩
  | block => exact absorb _ ⟨_, foldBlock_eq ha⟩
  | final tail =>
    apply absorb
    by_cases hn : s.alg = algMd2 ∧ 16 ≤ tailCount tail
    · exact ⟨_, by rw [finishMessage, if_pos hn]⟩
    · exact ⟨_, finishMessage_eq tail ha hn⟩
  | _ => exact gate _

/-- STATUS after reset (10_state.md R44). -/
theorem statusWord_zero {s : State} (h : s.busy = false ∧ s.phase = 0 ∧ s.err = false ∧ s.errCode = 0 ∧
    s.alg = 0 ∧ s.ovr = false) : statusWord s = 0 := by
  obtain ⟨h1, h2, h3, h4, h5, h6⟩ := h
  simp [statusWord, h1, h2, h3, h4, h5, h6, flagWord]

/-! ### The order of inputs -/

/-- How many steps the inputs of a list still take before pending commands. -/
def stepsBefore (l : List Input) : Nat := (l.map Input.before).sum

@[simp] theorem stepsBefore_cons (i : Input) (l : List Input) : stepsBefore (i :: l) = i.before + stepsBefore l := by
  simp [stepsBefore]

/-- The first reset is a reset, and takes its steps from those of the list. -/
theorem firstReset_some {l : List Input} {p : Input × List Input} (h : firstReset l = some p) :
    p.1.op = .reset ∧ p.1.before + stepsBefore p.2 ≤ stepsBefore l := by
  induction l with
  | nil => cases h
  | cons i rest ih =>
    rw [firstReset] at h
    split at h
    · cases h; exact ⟨‹_›, by simp⟩
    · obtain ⟨h1, h2⟩ := ih h
      exact ⟨h1, by simp; omega⟩

/-- The next input is one that can be made, and takes its steps from those of the list. -/
theorem nextInput_some {l : List Input} {p : Input × List Input} (h : nextInput l = some p) :
    hostOpEnabled p.1.op = true ∧ p.1.before + stepsBefore p.2 ≤ stepsBefore l := by
  cases l with
  | nil => cases h
  | cons i rest =>
    rw [nextInput] at h
    split at h
    · cases h; exact ⟨‹_›, by simp⟩
    · simp only [Option.map_eq_some_iff] at h
      obtain ⟨q, hq, rfl⟩ := h
      obtain ⟨h1, h2⟩ := firstReset_some hq
      exact ⟨by simp [h1, hostOpEnabled], by simp; omega⟩

/-- An input that had steps to take before a pending command has taken one of them. -/
theorem inputsAfter_before (i : Input) (rest : List Input) (s : State) (h : i.before ≠ 0) :
    stepsBefore (inputsAfter i rest s) < i.before + stepsBefore rest := by
  unfold inputsAfter
  split <;> simp <;> omega

/-- A move the outside can make reaches a next state. -/
theorem hostStep_enabled {op : HostOp} (s : State) (h : hostOpEnabled op = true) :
    ∃ t, hostStep op s = .next t := by
  cases op with
  | read width off =>
    obtain ⟨r, hr⟩ := Option.isSome_iff_exists.mp h
    exact ⟨_, by simp [hostStep, hr]; rfl⟩
  | write width off v =>
    obtain ⟨r, hr⟩ := Option.isSome_iff_exists.mp h
    exact ⟨_, by simp [hostStep, hr]; rfl⟩
  | wait => exact ⟨_, rfl⟩
  | checkErr => exact ⟨_, rfl⟩
  | reset => exact ⟨_, rfl⟩

/-- Bit 0 of STATUS is BUSY (10_state.md R29). -/
theorem statusWord_bit0 (s : State) : (statusWord s).getLsbD 0 = s.busy := by
  cases h : s.busy <;> simp [statusWord, flagWord, h]

/-- An input that is no `wait` takes its one step. -/
theorem inputsAfter_access {i : Input} (rest : List Input) (s : State) (h : i.op ≠ .wait) :
    inputsAfter i rest s = rest := by
  simp [inputsAfter, h]

/-- A `wait` that finds BUSY = 0 ends (30_encoding.md R100). -/
theorem inputsAfter_idle (i : Input) (rest : List Input) {s : State} (h : s.busy = false) :
    inputsAfter i rest s = rest := by
  rw [inputsAfter, readValue, statusWord_bit0, h]
  exact if_neg fun hw => Bool.false_ne_true hw.2

/-- A `wait` that finds BUSY = 1 goes round again (R100). -/
theorem inputsAfter_wait (n : Nat) (rest : List Input) {s : State} (h : s.busy = true) :
    inputsAfter ⟨n, .wait⟩ rest s = ⟨n - 1, .wait⟩ :: rest := by
  rw [inputsAfter, readValue, statusWord_bit0, h]
  exact if_pos ⟨rfl, rfl⟩

/-! ### The byte lanes -/

/-- A byte of BLK after a write of word k (20_memory.md R63): the four bytes of the word, the others as before. -/
theorem setLane_getElem (B : Vector Byte 64) (k : Fin 16) (v : Word) (i : Nat) (hi : i < 64) :
    (setLane B k v)[i] = if i / 4 = k.val then byteOf v (i % 4) else B[i] := by
  simp only [setLane, Vector.getElem_set]
  have hk := k.isLt
  have hmod : i % 4 < 4 := Nat.mod_lt _ (by decide)
  split
  · simp [show i / 4 = k.val by omega, show i % 4 = 3 by omega]
  · split
    · simp [show i / 4 = k.val by omega, show i % 4 = 2 by omega]
    · split
      · simp [show i / 4 = k.val by omega, show i % 4 = 1 by omega]
      · split
        · simp [show i / 4 = k.val by omega, show i % 4 = 0 by omega]
        · rw [if_neg (by omega)]

end Sys2Proof.Machine
end

