-- ==== Sys2Proof/Laws/Frames.lean ====
section
/-! SUPPORT. What the folds of BLOCK and FINAL leave unchanged in the algorithm state, by algorithm (10_state.md
R45, R46). -/

namespace Sys2Proof.Machine

/-! ### One block -/

theorem addQuad_frame (h : AlgoState) (q : Quad) : SameMd2State h (addQuad h q) ∧ (addQuad h q).h4 = h.h4 :=
  ⟨⟨rfl, rfl, rfl⟩, rfl⟩

theorem addQuint_frame (h : AlgoState) (q : Quint) : SameMd2State h (addQuint h q) := ⟨rfl, rfl, rfl⟩

/-- `md4_compress` ends by adding four words to H0-H3 (42_md4.md R188). -/
theorem md4Compress_adds (h : AlgoState) (B : Vector Byte 64) : ∃ q, md4Compress h B = addQuad h q :=
  ⟨_, by rw [md4Compress]⟩

/-- `md5_compress` ends by adding four words to H0-H3 (43_md5.md R218). -/
theorem md5Compress_adds (h : AlgoState) (B : Vector Byte 64) : ∃ q, md5Compress h B = addQuad h q :=
  ⟨_, by rw [md5Compress]⟩

/-- `sha1_compress` ends by adding five words to H0-H4 (44_sha1.md R246). -/
theorem sha1Compress_adds (h : AlgoState) (B : Vector Byte 64) : ∃ q, sha1Compress h B = addQuint h q :=
  ⟨_, by rw [sha1Compress]⟩

/-- `md2_absorb` writes X, C and L (41_md2.md R158). -/
theorem md2Absorb_writes (h : AlgoState) (B : Vector Byte 16) :
    ∃ X C L, md2Absorb h B = { h with x := X, c := C, l := L } :=
  ⟨_, _, _, by rw [md2Absorb]⟩

theorem md4Compress_frame (h : AlgoState) (B : Vector Byte 64) :
    SameMd2State h (md4Compress h B) ∧ (md4Compress h B).h4 = h.h4 := by
  obtain ⟨q, hq⟩ := md4Compress_adds h B
  rw [hq]
  exact addQuad_frame h q

theorem md5Compress_frame (h : AlgoState) (B : Vector Byte 64) :
    SameMd2State h (md5Compress h B) ∧ (md5Compress h B).h4 = h.h4 := by
  obtain ⟨q, hq⟩ := md5Compress_adds h B
  rw [hq]
  exact addQuad_frame h q

theorem sha1Compress_frame (h : AlgoState) (B : Vector Byte 64) : SameMd2State h (sha1Compress h B) := by
  obtain ⟨q, hq⟩ := sha1Compress_adds h B
  rw [hq]
  exact addQuint_frame h q

theorem md2Absorb_frame (h : AlgoState) (B : Vector Byte 16) : SameChaining h (md2Absorb h B) := by
  obtain ⟨X, C, L, hq⟩ := md2Absorb_writes h B
  rw [hq]
  exact ⟨rfl, rfl, rfl, rfl, rfl⟩

/-- The compression of the checksum block writes X (41_md2.md R159). -/
theorem writeX_frame {h k : AlgoState} (X : Vector Byte 48) (hk : SameChaining h k) :
    SameChaining h { k with x := X } := hk

theorem md2Final_frame (h : AlgoState) (tail : List Byte) : SameChaining h (md2Final h tail) := by
  unfold md2Final
  exact writeX_frame _ (md2Absorb_frame h _)

/-! ### A list of blocks -/

/-- A relation every fold of one block keeps, the fold of a list of blocks keeps. -/
theorem foldl_keeps {n : Nat} {P : AlgoState → AlgoState → Prop} (hr : ∀ h, P h h)
    (ht : ∀ a b c, P a b → P b c → P a c) {f : AlgoState → Vector Byte n → AlgoState} (hf : ∀ h B, P h (f h B))
    (l : List (Vector Byte n)) (h : AlgoState) : P h (l.foldl f h) := by
  induction l generalizing h with
  | nil => exact hr h
  | cons B l ih => exact ht _ _ _ (hf h B) (ih _)

/-- The frame of MD4 and MD5: X, C, L and H4. -/
theorem foldl_frame4 {f : AlgoState → Vector Byte 64 → AlgoState}
    (hf : ∀ h B, SameMd2State h (f h B) ∧ (f h B).h4 = h.h4) (l : List (Vector Byte 64)) (h : AlgoState) :
    SameMd2State h (l.foldl f h) ∧ (l.foldl f h).h4 = h.h4 :=
  foldl_keeps (P := fun a b => SameMd2State a b ∧ b.h4 = a.h4) (fun _ => ⟨⟨rfl, rfl, rfl⟩, rfl⟩)
    (fun _ _ _ h1 h2 => ⟨⟨h2.1.1.trans h1.1.1, h2.1.2.1.trans h1.1.2.1, h2.1.2.2.trans h1.1.2.2⟩, h2.2.trans h1.2⟩)
    hf l h

/-- The frame of SHA-1: X, C, L. -/
theorem foldl_frame5 {f : AlgoState → Vector Byte 64 → AlgoState} (hf : ∀ h B, SameMd2State h (f h B))
    (l : List (Vector Byte 64)) (h : AlgoState) : SameMd2State h (l.foldl f h) :=
  foldl_keeps (P := SameMd2State) (fun _ => ⟨rfl, rfl, rfl⟩)
    (fun _ _ _ h1 h2 => ⟨h2.1.trans h1.1, h2.2.1.trans h1.2.1, h2.2.2.trans h1.2.2⟩) hf l h

/-! ### BLOCK and FINAL -/

theorem blockFold_frame (code : BitVec 3) (blk : Vector Byte 64) (h : AlgoState) :
    (code = algMd2 → SameChaining h (blockFold code blk h)) ∧
    (code ≠ algMd2 → SameMd2State h (blockFold code blk h)) ∧
    (code = algMd4 ∨ code = algMd5 → (blockFold code blk h).h4 = h.h4) := by
  unfold blockFold
  refine ⟨fun hc => ?_, fun hc => ?_, fun hc => ?_⟩
  · rw [if_pos hc]
    exact md2Absorb_frame _ _
  · rw [if_neg hc]
    split
    · exact (md4Compress_frame _ _).1
    · split
      · exact (md5Compress_frame _ _).1
      · exact sha1Compress_frame _ _
  · rcases hc with hc | hc
    · rw [if_neg (by rw [hc]; decide), if_pos hc]
      exact (md4Compress_frame _ _).2
    · rw [if_neg (by rw [hc]; decide), if_neg (by rw [hc]; decide), if_pos hc]
      exact (md5Compress_frame _ _).2

theorem tailFold_frame (code : BitVec 3) (tail : List Byte) (len : Length) (h : AlgoState) :
    (code = algMd2 → SameChaining h (tailFold code tail len h)) ∧
    (code ≠ algMd2 → SameMd2State h (tailFold code tail len h)) ∧
    (code = algMd4 ∨ code = algMd5 → (tailFold code tail len h).h4 = h.h4) := by
  unfold tailFold
  refine ⟨fun hc => ?_, fun hc => ?_, fun hc => ?_⟩
  · rw [if_pos hc]
    exact md2Final_frame _ _
  · rw [if_neg hc]
    split
    · exact (foldl_frame4 md4Compress_frame _ _).1
    · split
      · exact (foldl_frame4 md5Compress_frame _ _).1
      · exact foldl_frame5 sha1Compress_frame _ _
  · rcases hc with hc | hc
    · rw [if_neg (by rw [hc]; decide), if_pos hc]
      exact (foldl_frame4 md4Compress_frame _ _).2
    · rw [if_neg (by rw [hc]; decide), if_neg (by rw [hc]; decide), if_pos hc]
      exact (foldl_frame4 md5Compress_frame _ _).2

end Sys2Proof.Machine
end

