-- ==== Sys2Proof/Laws/PerInstr.lean ====
section
/-! SUPPORT. Statements for every command, one lemma per constructor. -/

namespace Sys2Proof.Laws.ReservedBitsZero

/-- The word of a well-formed command leaves every reserved bit 0 and has one of the six OP values
(30_encoding.md R91, R92). -/
def Statement (i : Instr) : Prop :=
  i.wellFormed = true ∧ reservedHigh (encode i) = 0 ∧ reservedBit7 (encode i) = 0 ∧ (opField (encode i)).toNat ≤ 5

theorem nop : Statement .nop := by unfold Statement; decide
theorem initMd2 : Statement .initMd2 := by unfold Statement; decide
theorem initMd4 : Statement .initMd4 := by unfold Statement; decide
theorem initMd5 : Statement .initMd5 := by unfold Statement; decide
theorem initSha1 : Statement .initSha1 := by unfold Statement; decide
theorem initSha224 : Statement .initSha224 := by unfold Statement; decide
theorem initSha256 : Statement .initSha256 := by unfold Statement; decide
theorem initSha384 : Statement .initSha384 := by unfold Statement; decide
theorem initSha512 : Statement .initSha512 := by unfold Statement; decide
theorem block : Statement .block := by unfold Statement; decide
theorem final (tail : BitVec 6) : Statement (.final tail) := by unfold Statement; revert tail; decide
theorem clrerr : Statement .clrerr := by unfold Statement; decide
theorem srst : Statement .srst := by unfold Statement; decide

end Sys2Proof.Laws.ReservedBitsZero
end

