-- ==== Sys2Proof/Laws/Runs.lean ====
section
/-! SUPPORT. Runs of the machine on a list of inputs: one input, a list of word stores, a command with its wait
(30_encoding.md R100). -/

namespace Sys2Proof.Machine

/-! ### Steps in sequence -/

theorem run_succ {k : Nat} {s u : State} (h : step s = .next u) :
    Host.Core.run Sys2Proof.core (k + 1) s = Host.Core.run Sys2Proof.core k u := by
  have h' : Sys2Proof.core.step s = .next u := h
  simp only [Host.Core.run, h']

/-- A run that continues a run. -/
theorem run_add {j k : Nat} {s u : State} (h : Host.Core.run Sys2Proof.core j s = .next u) :
    Host.Core.run Sys2Proof.core (j + k) s = Host.Core.run Sys2Proof.core k u := by
  induction j generalizing s with
  | zero =>
    cases h
    rw [Nat.zero_add]
  | succ j ih =>
    rw [Nat.succ_add]
    cases hs : step s with
    | next v =>
      rw [run_succ hs] at h ⊢
      exact ih h
    | fault r =>
      have hs' : Sys2Proof.core.step s = .fault r := hs
      simp only [Host.Core.run, hs'] at h
      cases h
    | refused r =>
      have hs' : Sys2Proof.core.step s = .refused r := hs
      simp only [Host.Core.run, hs'] at h
      cases h

/-! ### One input -/

/-- The outside moves when no command is pending, or the input comes before the pending one. -/
theorem step_input {s : State} {i : Input} {rest : List Input} (hf : fieldsInRange s = true)
    (hi : s.inputs = i :: rest) (he : hostOpEnabled i.op = true)
    (hm : s.busy = false ∨ i.before ≠ 0) :
    step s = hostStep i.op { s with inputs := inputsAfter i rest s } := by
  have hn : nextInput s.inputs = some (i, rest) := by rw [hi, nextInput, if_pos he]
  have hmove : engineMoves s = false := by
    rcases hm with h | h <;> simp [engineMoves, hn, h]
  simp [step, hf, hmove, inputStep, hn]

/-- The engine moves when a command is pending and the next input comes after it. -/
theorem step_engine {s : State} {i : Input} {rest : List Input} (hf : fieldsInRange s = true)
    (hb : s.busy = true) (hi : s.inputs = i :: rest) (he : hostOpEnabled i.op = true)
    (ha : i.before = 0) : step s = engineStep s := by
  have hn : nextInput s.inputs = some (i, rest) := by rw [hi, nextInput, if_pos he]
  simp [step, hf, engineMoves, hn, hb, ha]

/-- An input that comes next while no command is pending takes its one step. -/
theorem step_idle {s : State} {i : Input} {rest : List Input} (hf : fieldsInRange s = true)
    (hb : s.busy = false) (hi : s.inputs = i :: rest) (he : hostOpEnabled i.op = true) :
    step s = hostStep i.op { s with inputs := rest } := by
  rw [step_input hf hi he (.inl hb), inputsAfter_idle i rest hb]

/-- A read that comes next while no command is pending. -/
theorem step_load {s : State} {n : Nat} {off : BitVec 8} {r : WindowReg} {rest : List Input}
    (hf : fieldsInRange s = true) (hb : s.busy = false) (hi : s.inputs = ⟨n, loadWord off⟩ :: rest)
    (hr : admitted .bits32 off = some r) :
    step s = .next (busRead r { s with inputs := rest }) := by
  rw [step_idle hf hb hi (by simp [loadWord, hostOpEnabled, hr])]
  simp only [loadWord, hostStep, hr]

/-- A write that comes next while no command is pending. -/
theorem step_store {s : State} {n : Nat} {off : BitVec 8} {v : Word} {r : WindowReg} {rest : List Input}
    (hf : fieldsInRange s = true) (hb : s.busy = false) (hi : s.inputs = ⟨n, storeWord off v⟩ :: rest)
    (hr : admitted .bits32 off = some r) :
    step s = .next (busWrite r v { s with inputs := rest }) := by
  rw [step_idle hf hb hi (by simp [storeWord, hostOpEnabled, hr])]
  simp only [storeWord, hostStep, hr]

/-- `checkerr` (30_encoding.md R100) while no command is pending. -/
theorem step_checkErr {s : State} {n : Nat} {rest : List Input} (hf : fieldsInRange s = true)
    (hb : s.busy = false) (hi : s.inputs = ⟨n, .checkErr⟩ :: rest) :
    step s = .next { s with
      inputs := rest, reads := statusWord s :: s.reads, checks := errorIn (statusWord s) :: s.checks } := by
  rw [step_idle hf hb hi rfl]
  rfl

/-- The register at the offset of BLKk. -/
theorem admitted_blk (k : Nat) (hk : k < 16) : admitted .bits32 (offBlk k) = some (.blk ⟨k, hk⟩) := by
  revert k
  decide

/-- The register at the offset of DIGk. -/
theorem admitted_dig (k : Nat) (hk : k < 5) : admitted .bits32 (offDig k) = some (.dig ⟨k, hk⟩) := by
  revert k
  decide

/-! ### Loading BLK -/

/-- The words 0, 1, ... of `ws` stored from BLK0 on, whatever the order of the engine's steps. -/
theorem run_storeWords (ws : Nat → Word) (q : Nat) {s : State} {ins rest : List Input} (hq : q ≤ 16)
    (hf : fieldsInRange s = true) (hb : s.busy = false) (hi : s.inputs = ins ++ rest)
    (ho : ins.map Input.op = (List.range q).map fun k => storeWord (offBlk k) (ws k)) :
    ∃ B : Vector Byte 64, Host.Core.run Sys2Proof.core q s = .next { s with blk := B, inputs := rest } ∧
      ∀ i (hi : i < 64), B[i] = if i / 4 < q then byteOf (ws (i / 4)) (i % 4) else s.blk[i] := by
  induction q generalizing ins rest with
  | zero =>
    refine ⟨s.blk, ?_, by simp⟩
    have : s.inputs = rest := by simpa [show ins = [] by simpa using ho] using hi
    subst this
    rfl
  | succ q ih =>
    rw [List.range_succ, List.map_append] at ho
    obtain ⟨fst, lst, rfl, hfst, hlst⟩ := List.map_eq_append_iff.mp ho
    obtain ⟨⟨n, op⟩, rfl, rfl⟩ := List.map_eq_singleton_iff.mp hlst
    rw [List.append_assoc] at hi
    obtain ⟨B, hrun, hB⟩ := ih (by omega) hi hfst
    refine ⟨setLane B ⟨q, by omega⟩ (ws q), ?_, ?_⟩
    · rw [run_add hrun, run_succ (step_store (s := { s with
        blk := B
        inputs := [⟨n, storeWord (offBlk q) (ws q)⟩] ++ rest }) hf hb rfl (admitted_blk q (by omega)))]
      simp only [busWrite, hb]
      rfl
    · intro i hi
      rw [setLane_getElem]
      simp only [hB i hi]
      by_cases h1 : i / 4 = q
      · simp [h1]
      · rw [if_neg h1]
        by_cases h2 : i / 4 < q
        · rw [if_pos h2, if_pos (by omega)]
        · rw [if_neg h2, if_neg (by omega)]

/-! ### A command and its wait -/

/-- What a command leaves of what lies outside the block. -/
theorem exec_outside {i : Instr} {s t : State} (h : exec i s = .next t) :
    t.inputs = s.inputs ∧ t.reads = s.reads ∧ t.checks = s.checks := by
  cases exec_cases h <;> simp

/-- The polls of a `wait` that come before the pending command. -/
theorem run_polls (n : Nat) {s : State} {rest : List Input} (hf : fieldsInRange s = true) (hb : s.busy = true)
    (hi : s.inputs = ⟨n, .wait⟩ :: rest) :
    ∃ rd, Host.Core.run Sys2Proof.core n s = .next { s with inputs := ⟨0, .wait⟩ :: rest, reads := rd } := by
  induction n generalizing s with
  | zero => exact ⟨s.reads, by rw [← hi]; rfl⟩
  | succ n ih =>
    have hstep := step_input hf hi rfl (.inr (Nat.succ_ne_zero n))
    rw [inputsAfter_wait _ _ hb, Nat.add_sub_cancel] at hstep
    obtain ⟨rd, hrun⟩ := ih (s := busRead .status { s with inputs := ⟨n, .wait⟩ :: rest })
      (by rw [← hf]; exact fieldsInRange_congr rfl rfl rfl) hb rfl
    exact ⟨rd, by rw [run_succ hstep, hrun]; rfl⟩

/-- `run X` (R100) from a state with no command pending, however often its `wait` polls: the command executes
once, and afterwards the program goes on with BUSY = 0. -/
theorem run_command {i : Instr} {s : State} {ins rest : List Input} (hd : decode (encode i) = .ok i)
    (hf : fieldsInRange s = true) (hb : s.busy = false) (hi : s.inputs = ins ++ rest)
    (ho : ins.map Input.op = runOps i) :
    ∃ ins rd, ∀ u, exec i { s with pend := encode i, busy := true, inputs := ins, reads := rd } = .next u →
      fieldsInRange u = true →
      ∃ k rd', Host.Core.run Sys2Proof.core k s = .next { u with busy := false, inputs := rest, reads := rd' } := by
  obtain ⟨⟨m, op⟩, ins, rfl, rfl, hw⟩ := List.map_eq_cons_iff.mp ho
  obtain ⟨⟨polls, op⟩, rfl, rfl⟩ := List.map_eq_singleton_iff.mp hw
  replace hi : s.inputs = ⟨m, storeWord offCmd (encode i)⟩ :: ⟨polls, .wait⟩ :: rest := hi
  have h1 := step_store hf hb hi (show admitted .bits32 offCmd = some .cmd by decide)
  simp only [busWrite, hb, Bool.false_eq_true, if_false] at h1
  obtain ⟨rd, h2⟩ := run_polls polls (s := { s with
    pend := encode i, busy := true, inputs := ⟨polls, .wait⟩ :: rest })
    (by rw [← hf]; exact fieldsInRange_congr rfl rfl rfl) rfl rfl
  refine ⟨⟨0, .wait⟩ :: rest, rd, fun u hu hfu => ?_⟩
  obtain ⟨hui, -⟩ := exec_outside hu
  have h3 : step { s with pend := encode i, busy := true, inputs := ⟨0, .wait⟩ :: rest, reads := rd } =
      .next (clearBusy u) := by
    rw [step_engine (by rw [← hf]; exact fieldsInRange_congr rfl rfl rfl) rfl rfl rfl rfl, engineStep,
      executeWord]
    simp only [hd, hu, retire]
  have h4 := step_idle (s := clearBusy u) (by rw [← hfu]; exact fieldsInRange_congr rfl rfl rfl) rfl hui rfl
  refine ⟨1 + (polls + 2), statusWord { clearBusy u with inputs := rest } :: u.reads, ?_⟩
  rw [run_add (j := 1) (show Host.Core.run Sys2Proof.core 1 s = _ from by rw [run_succ h1]; rfl), run_add h2,
    run_succ h3, run_succ h4]
  rfl

/-- The reads of DIG0-DIG4 with no command pending. -/
theorem run_readDig {s : State} {ins rest : List Input} (hf : fieldsInRange s = true) (hb : s.busy = false)
    (hi : s.inputs = ins ++ rest) (ho : ins.map Input.op = readDigOps) :
    Host.Core.run Sys2Proof.core 5 s = .next { s with
      inputs := rest
      reads := readValue (.dig 4) s :: readValue (.dig 3) s :: readValue (.dig 2) s :: readValue (.dig 1) s ::
        readValue (.dig 0) s :: s.reads } := by
  have one : ∀ (k n : Nat) (hk : k < 5) (rs : List Input) (rd : List Word),
      step { s with inputs := ⟨n, loadWord (offDig k)⟩ :: rs, reads := rd } =
        .next { s with inputs := rs, reads := readValue (.dig ⟨k, hk⟩) s :: rd } := by
    intro k n hk rs rd
    rw [step_load (s := { s with inputs := ⟨n, loadWord (offDig k)⟩ :: rs, reads := rd })
      (by rw [← hf]; exact fieldsInRange_congr rfl rfl rfl) hb rfl (admitted_dig k hk)]
    simp [busRead, readIsDraw, hb, readValue]
  obtain ⟨⟨n0, _⟩, _, rfl, rfl, h1⟩ := List.map_eq_cons_iff.mp ho
  obtain ⟨⟨n1, _⟩, _, rfl, rfl, h2⟩ := List.map_eq_cons_iff.mp h1
  obtain ⟨⟨n2, _⟩, _, rfl, rfl, h3⟩ := List.map_eq_cons_iff.mp h2
  obtain ⟨⟨n3, _⟩, _, rfl, rfl, h4⟩ := List.map_eq_cons_iff.mp h3
  obtain ⟨⟨n4, _⟩, rfl, rfl⟩ := List.map_eq_singleton_iff.mp h4
  replace hi : s.inputs = ⟨n0, loadWord (offDig 0)⟩ :: ⟨n1, loadWord (offDig 1)⟩ :: ⟨n2, loadWord (offDig 2)⟩ ::
    ⟨n3, loadWord (offDig 3)⟩ :: ⟨n4, loadWord (offDig 4)⟩ :: rest := hi
  have key : ∀ l, l = s.inputs → Host.Core.run Sys2Proof.core 5 { s with inputs := l } = .next { s with
      inputs := rest
      reads := readValue (.dig 4) s :: readValue (.dig 3) s :: readValue (.dig 2) s :: readValue (.dig 1) s ::
        readValue (.dig 0) s :: s.reads } := by
    rintro _ rfl
    rw [hi, run_succ (one 0 n0 (by decide) _ _), run_succ (one 1 n1 (by decide) _ _),
      run_succ (one 2 n2 (by decide) _ _), run_succ (one 3 n3 (by decide) _ _),
      run_succ (one 4 n4 (by decide) _ _)]
    rfl
  exact key _ rfl

end Sys2Proof.Machine
end

