-- ==== Sys2Proof/Laws/Used.lean ====
section
/-! SUPPORT. A command reads only the algorithm state of ALG (10_state.md R45, R46): the folds of BLOCK and FINAL
take states that agree on that part to states that agree on it. -/

namespace Sys2Proof.Machine

/-! ### The part each algorithm uses -/

/-- X, C and L agree. -/
def Agree2 (h k : AlgoState) : Prop := h.x = k.x ∧ h.c = k.c ∧ h.l = k.l

/-- H0-H3 agree. -/
def Agree4 (h k : AlgoState) : Prop := h.h0 = k.h0 ∧ h.h1 = k.h1 ∧ h.h2 = k.h2 ∧ h.h3 = k.h3

/-- H0-H4 agree. -/
def Agree5 (h k : AlgoState) : Prop := Agree4 h k ∧ h.h4 = k.h4

theorem sameUsedAlgo_iff {code : BitVec 3} (hc : code.toNat ≤ 3) (h k : AlgoState) :
    SameUsedAlgo code h k ↔ (code = algMd2 → Agree2 h k) ∧ (code = algMd4 → Agree4 h k) ∧
      (code = algMd5 → Agree4 h k) ∧ (code = algSha1 → Agree5 h k) := by
  rcases alg_cases hc with rfl | rfl | rfl | rfl <;>
    simp [SameUsedAlgo, Agree2, Agree4, Agree5, algMd2, algMd4, algMd5, algSha1]

/-! ### One block -/

theorem quadOf_agree {h k : AlgoState} (e : Agree4 h k) : quadOf h = quadOf k := by
  obtain ⟨h0, h1, h2, h3⟩ := e
  simp [quadOf, h0, h1, h2, h3]

theorem quintOf_agree {h k : AlgoState} (e : Agree5 h k) : quintOf h = quintOf k := by
  obtain ⟨⟨h0, h1, h2, h3⟩, h4⟩ := e
  simp [quintOf, h0, h1, h2, h3, h4]

theorem addQuad_agree {h k : AlgoState} (q : Quad) (e : Agree4 h k) : Agree4 (addQuad h q) (addQuad k q) := by
  obtain ⟨h0, h1, h2, h3⟩ := e
  simp [Agree4, addQuad, h0, h1, h2, h3]

theorem addQuint_agree {h k : AlgoState} (q : Quint) (e : Agree5 h k) : Agree5 (addQuint h q) (addQuint k q) := by
  obtain ⟨⟨h0, h1, h2, h3⟩, h4⟩ := e
  simp [Agree5, Agree4, addQuint, h0, h1, h2, h3, h4]

theorem md4Compress_agree {h k : AlgoState} (B : Vector Byte 64) (e : Agree4 h k) :
    Agree4 (md4Compress h B) (md4Compress k B) := by
  unfold md4Compress
  rw [quadOf_agree e]
  exact addQuad_agree _ e

theorem md5Compress_agree {h k : AlgoState} (B : Vector Byte 64) (e : Agree4 h k) :
    Agree4 (md5Compress h B) (md5Compress k B) := by
  unfold md5Compress
  rw [quadOf_agree e]
  exact addQuad_agree _ e

theorem sha1Compress_agree {h k : AlgoState} (B : Vector Byte 64) (e : Agree5 h k) :
    Agree5 (sha1Compress h B) (sha1Compress k B) := by
  unfold sha1Compress
  rw [quintOf_agree e]
  exact addQuint_agree _ e

theorem md2Absorb_agree {h k : AlgoState} (B : Vector Byte 16) (e : Agree2 h k) :
    Agree2 (md2Absorb h B) (md2Absorb k B) := by
  obtain ⟨hx, hc, hl⟩ := e
  unfold md2Absorb
  rw [hx, hc, hl]
  exact ⟨rfl, rfl, rfl⟩

/-- The compression of the checksum block, from states that agree. -/
theorem checksumBlock_agree {h k : AlgoState} (e : Agree2 h k) :
    Agree2 { h with x := md2Compress h.x h.c } { k with x := md2Compress k.x k.c } := by
  obtain ⟨hx, hc, hl⟩ := e
  exact ⟨by rw [hx, hc], hc, hl⟩

theorem md2Final_agree {h k : AlgoState} (tail : List Byte) (e : Agree2 h k) :
    Agree2 (md2Final h tail) (md2Final k tail) := by
  unfold md2Final
  exact checksumBlock_agree (md2Absorb_agree _ e)

/-! ### A list of blocks -/

theorem foldl_agree {n : Nat} {R : AlgoState → AlgoState → Prop} {f : AlgoState → Vector Byte n → AlgoState}
    (hf : ∀ h k B, R h k → R (f h B) (f k B)) (l : List (Vector Byte n)) (h k : AlgoState) (e : R h k) :
    R (l.foldl f h) (l.foldl f k) := by
  induction l generalizing h k with
  | nil => exact e
  | cons B l ih => exact ih _ _ (hf _ _ _ e)

/-! ### INIT, BLOCK and FINAL -/

/-- INIT writes all that its algorithm uses. -/
theorem initialAlgo_agree {code : BitVec 3} (hc : code.toNat ≤ 3) (h k : AlgoState) :
    SameUsedAlgo code (initialAlgo code h) (initialAlgo code k) := by
  rw [sameUsedAlgo_iff hc]
  rcases alg_cases hc with rfl | rfl | rfl | rfl <;>
    simp [initialAlgo, Agree2, Agree4, Agree5, algMd2, algMd4, algMd5, algSha1, md2Init, md4Init, md5Init, sha1Init]

theorem blockFold_agree {code : BitVec 3} (hc : code.toNat ≤ 3) (blk : Vector Byte 64) {h k : AlgoState}
    (e : SameUsedAlgo code h k) : SameUsedAlgo code (blockFold code blk h) (blockFold code blk k) := by
  rw [sameUsedAlgo_iff hc] at e ⊢
  obtain ⟨e2, e4, e5, e1⟩ := e
  unfold blockFold
  refine ⟨fun ha => ?_, fun ha => ?_, fun ha => ?_, fun ha => ?_⟩
  · simp only [if_pos ha]
    exact md2Absorb_agree _ (e2 ha)
  · have := md4Compress_agree blk (e4 ha)
    subst ha
    exact this
  · have := md5Compress_agree blk (e5 ha)
    subst ha
    exact this
  · have := sha1Compress_agree blk (e1 ha)
    subst ha
    exact this

theorem digestMd2_agree {h k : AlgoState} (e : Agree2 h k) : digestMd2 h = digestMd2 k := by
  simp [digestMd2, md2Digest, e.1]

theorem digestLe_agree {h k : AlgoState} (e : Agree4 h k) : digestLe h = digestLe k := by
  obtain ⟨h0, h1, h2, h3⟩ := e
  simp [digestLe, h0, h1, h2, h3]

theorem digestBe_agree {h k : AlgoState} (e : Agree5 h k) : digestBe h = digestBe k := by
  obtain ⟨⟨h0, h1, h2, h3⟩, h4⟩ := e
  simp [digestBe, h0, h1, h2, h3, h4]

/-- FINAL writes the same digest from states that agree. -/
theorem tailFold_agree {code : BitVec 3} (hc : code.toNat ≤ 3) (tail : List Byte) (len : Length) {h k : AlgoState}
    (e : SameUsedAlgo code h k) :
    digestOf code (tailFold code tail len h) = digestOf code (tailFold code tail len k) := by
  rw [sameUsedAlgo_iff hc] at e
  obtain ⟨e2, e4, e5, e1⟩ := e
  unfold tailFold digestOf
  rcases alg_cases hc with ha | ha | ha | ha
  · simp only [if_pos ha]
    exact digestMd2_agree (md2Final_agree _ (e2 ha))
  · have := digestLe_agree (foldl_agree (R := Agree4) (fun _ _ B e => md4Compress_agree B e)
      (blocksOf 64 (padTailMd .littleEndian tail len)) h k (e4 ha))
    subst ha
    exact this
  · have := digestLe_agree (foldl_agree (R := Agree4) (fun _ _ B e => md5Compress_agree B e)
      (blocksOf 64 (padTailMd .littleEndian tail len)) h k (e5 ha))
    subst ha
    exact this
  · have := digestBe_agree (foldl_agree (R := Agree5) (fun _ _ B e => sha1Compress_agree B e)
      (blocksOf 64 (padTailMd .bigEndian tail len)) h k (e1 ha))
    subst ha
    exact this

end Sys2Proof.Machine
end

