-- ==== Sys2Proof/Tests/Slice0.lean ====
section
/-! SUPPORT. Small tests. Expected values are the spec's: 95_test_vectors.md where a section number stands, else
the rule named. Each theorem `witness_<statement>` meets the hypotheses of the obligation of that name. -/

namespace Sys2Proof.Tests

open Sys2Proof.Machine

set_option maxRecDepth 100000

/-! ### Helpers -/

/-- A property of the next state; false of a fault or a refusal. -/
def aft (o : Outcome) (p : State → Bool) : Bool :=
  match o with
  | .next s => p s
  | _ => false

/-- The outcome is a next state with the property. -/
theorem aft_next {o : Outcome} {p : State → Bool} (h : aft o p = true) : ∃ t, o = .next t ∧ p t = true := by
  cases o with
  | next s => exact ⟨s, rfl, h⟩
  | fault r => cases h
  | refused r => cases h

/-- The state after INIT of an algorithm, with bytes loaded in BLK. -/
def started (alg : BitVec 3) (m : List Byte) : State :=
  { State.reset with phase := phaseAbsorb, alg := alg, algo := initialAlgo alg AlgoState.zero, blk := blockAt 64 m 0 }

/-- A state with PHASE = DONE. -/
def finished (alg : BitVec 3) : State := { started alg [] with phase := phaseDone }

/-- A state with an error recorded. -/
def failed (code : BitVec 4) : State := { State.reset with err := true, errCode := code }

/-- STATUS after the step that executes a word first thing. -/
def statusAfter (s : State) (w : Nat) (status : Word) : Bool :=
  aft (step (s.withFetchWord 32 w)) fun t => statusWord t == status

/-- The bytes 00, 01, ... (2.5 to 2.8). -/
def countUp (n : Nat) : List Byte := (List.range n).map (BitVec.ofNat 8)

/-! ### WellFormed: an ill-formed line for each check (R99) -/

theorem test_tail_in_range : tailInRange 63 = true ∧ tailInRange 64 = false := by decide

theorem test_known_algorithm : knownAlgorithm "md2" = true ∧ knownAlgorithm "sha3" = false := by decide

theorem test_ill_formed_lines_refused :
    CommandLine.wellFormed (.final 64) = false ∧ assemble (.final 64) = none ∧
    CommandLine.wellFormed (.init "sha3") = false ∧ assemble (.init "sha3") = none := by decide

/-- "It accepts `final 16` under `init md2`" (R99). -/
theorem test_well_formed_lines_accepted :
    assemble (.final 16) = some (.final 16) ∧ assemble (.init "sha512") = some .initSha512 ∧
    CommandLine.wellFormed (.final 16) = true ∧ CommandLine.wellFormed (.init "md4") = true := by decide

/-- "accepts `final 16`" and every command of the type (R94). -/
theorem test_instr_well_formed : (Instr.final 63).wellFormed = true ∧ Instr.block.wellFormed = true := by decide

/-! ### Decode: words written out from the fields of R91, one per constructor -/

theorem test_decode_nop : decode 0b00000000000000000000000000000000#32 = .ok .nop := by decide
theorem test_decode_init_md2 : decode 0b00000000000000000000000000000001#32 = .ok .initMd2 := by decide
theorem test_decode_init_md4 : decode 0b00000000000000000000000000010001#32 = .ok .initMd4 := by decide
theorem test_decode_init_md5 : decode 0b00000000000000000000000000100001#32 = .ok .initMd5 := by decide
theorem test_decode_init_sha1 : decode 0b00000000000000000000000000110001#32 = .ok .initSha1 := by decide
theorem test_decode_init_sha224 : decode 0b00000000000000000000000001000001#32 = .ok .initSha224 := by decide
theorem test_decode_init_sha256 : decode 0b00000000000000000000000001010001#32 = .ok .initSha256 := by decide
theorem test_decode_init_sha384 : decode 0b00000000000000000000000001100001#32 = .ok .initSha384 := by decide
theorem test_decode_init_sha512 : decode 0b00000000000000000000000001110001#32 = .ok .initSha512 := by decide
theorem test_decode_block : decode 0b00000000000000000000000000000010#32 = .ok .block := by decide
theorem test_decode_final : decode 0b00000000000000000011011100000011#32 = .ok (.final 55) := by decide
theorem test_decode_clrerr : decode 0b00000000000000000000000000000100#32 = .ok .clrerr := by decide
theorem test_decode_srst : decode 0b00000000000000000000000000000101#32 = .ok .srst := by decide

/-- The Illegal words of 2.10, and why each is (R96). -/
theorem test_decode_illegal :
    decode 0x00000081 = .error .reservedBit ∧ decode 0x00004003 = .error .reservedBit ∧
    decode 0x80000000 = .error .reservedBit ∧ decode 0x00000006 = .error .reservedOp ∧
    decode 0x0000000f = .error .reservedOp ∧ decode 0x00000102 = .error .unusedField ∧
    decode 0x00000013 = .error .unusedField ∧ decode 0x00000015 = .error .unusedField ∧
    decode 0x00001042 = .error .unusedField := by decide

/-- The encoder's words (R98). -/
theorem test_encode :
    encode .srst = 0x00000005 ∧ encode .initSha384 = 0x00000061 ∧ encode (.final 63) = 0x00003F03 := by decide

theorem test_decode_table_word :
    decodeTableWord 32 0x1003 = some (.final 16) ∧ decodeTableWord 32 0x81 = none ∧
    decodeTableWord 8 0x31 = some .initSha1 := by decide

/-! ### Codec, word arithmetic, round functions, padding (2.1 to 2.4) -/

theorem test_codec :
    le32 0xfe 0xdc 0xba 0x98 = 0x98badcfe ∧ be32 0x61 0x62 0x63 0x00 = 0x61626300 ∧
    bytesToWords 2 .littleEndian #v[1, 2, 3, 4, 5, 6, 7, 8] = #v[0x04030201, 0x08070605] ∧
    wordsToBytes 2 .bigEndian #v[0x01020304, 0x05060708] = #v[1, 2, 3, 4, 5, 6, 7, 8] := by decide

/-- "An input of 5 bytes has no meaning" (2.1, U11). -/
theorem test_codec_refuses :
    bytesToWordsChecked .littleEndian [1, 2, 3, 4, 5] = none ∧
    bytesToWordsChecked .bigEndian [1, 2, 3, 4] = some [0x01020304] := by decide

theorem test_rotl :
    rotl 0x80000001 1 = 0x00000003 ∧ rotl 0x12345678 0 = 0x12345678 ∧ rotl 0xdeadbeef 5 = 0xd5b7ddfb ∧
    rotl 0x00000001 31 = 0x80000000 := by decide

theorem test_round_functions :
    roundF 0x12345678 0x9abcdef0 0x0fedcba9 = 0x1ffddff1 ∧
    roundMajority 0x12345678 0x9abcdef0 0x0fedcba9 = 0x1abcdef8 ∧
    roundParity 0x12345678 0x9abcdef0 0x0fedcba9 = 0x87654321 ∧
    roundG5 0x12345678 0x9abcdef0 0x0fedcba9 = 0x92345678 ∧
    roundI 0x12345678 0x9abcdef0 0x0fedcba9 = 0x688aa88e := by decide

/-- Zero bytes of the padding: L = 0, 3, 55, 56, 63, 64, 119, 120 (2.4). -/
theorem test_zero_bytes :
    [0, 3, 55, 56, 63, 64, 119, 120].map zeroBytes = [55, 52, 0, 63, 56, 55, 0, 63] := by decide

/-- The length fields of L = 120 and of L = 2^61 + 3 and 2^64 - 1, which wrap (2.4). -/
theorem test_length_field :
    lengthField .littleEndian 120 = [0xc0, 0x03, 0, 0, 0, 0, 0, 0] ∧
    lengthField .bigEndian 0x2000000000000003 = [0, 0, 0, 0, 0, 0, 0, 0x18] ∧
    lengthField .littleEndian 0xffffffffffffffff = [0xf8, 0xff, 0xff, 0xff, 0xff, 0xff, 0xff, 0xff] := by decide

/-- The padded "abc" of MD2, and the lengths of L = 15, 16, 32 (2.4). -/
theorem test_pad_md2 :
    padMd2 [0x61, 0x62, 0x63] = [0x61, 0x62, 0x63] ++ List.replicate 13 0x0d ∧
    [15, 16, 32].map (fun n => (padMd2 (List.replicate n 0)).length) = [16, 32, 48] := by decide +kernel

/-- A tail of 55 bytes pads to one block, one of 56 to two (2.4). -/
theorem test_pad_tail :
    (padTailMd .bigEndian (List.replicate 55 0x61) 55).length = 64 ∧
    (padTailMd .bigEndian (List.replicate 56 0x61) 56).length = 128 := by decide +kernel

/-! ### The engines' steps (2.5 to 2.8) -/

/-- MD2 of "": C after the padded block. -/
theorem test_md2_checksum :
    (md2ChecksumUpdate (Vector.replicate 16 0) 0 (Vector.replicate 16 0x10)).1.toList =
      [0x62, 0x38, 0x67, 0xb6, 0xaf, 0x52, 0x79, 0x5e, 0x5f, 0x21, 0x4e, 0x97, 0x20, 0xbe, 0xea, 0x8d] ∧
    (md2ChecksumUpdate (Vector.replicate 16 0) 0 (Vector.replicate 16 0x10)).2 = 0x8d := by decide +kernel

/-- The message words of the padded "" (2.6). -/
def emptyWords : Vector Word 16 := #v[0x80, 0, 0, 0, 0, 0, 0, 0, 0, 0, 0, 0, 0, 0, 0, 0]

/-- H0-H3 after INIT md4 and INIT md5. -/
def initialQuad : Quad := ⟨0x67452301, 0xefcdab89, 0x98badcfe, 0x10325476⟩

/-- Step 0 of MD4, of MD5 (2.6, 2.7): the updates of 90_conflicts.md C1 and C2. -/
theorem test_first_steps :
    md4Step emptyWords initialQuad 0 = ⟨0x10325476, 0x000003f8, 0xefcdab89, 0x98badcfe⟩ ∧
    md5Step emptyWords initialQuad 0 = ⟨0x10325476, 0xa5202774, 0xefcdab89, 0x98badcfe⟩ := by decide

/-- Steps 16 and 32 of MD4, and 16, 32 and 48 of MD5, are the first of a round: their functions (R183, R212). -/
theorem test_rounds :
    md4RoundFn 16 0x12345678 0x9abcdef0 0x0fedcba9 = 0x1abcdef8 ∧
    md4RoundFn 47 0x12345678 0x9abcdef0 0x0fedcba9 = 0x87654321 ∧
    md5RoundFn 16 0x12345678 0x9abcdef0 0x0fedcba9 = 0x92345678 ∧
    md5RoundFn 47 0x12345678 0x9abcdef0 0x0fedcba9 = 0x87654321 ∧
    md5RoundFn 48 0x12345678 0x9abcdef0 0x0fedcba9 = 0x688aa88e := by decide

/-- The padded "abc" of SHA-1 (2.8). -/
def abcBlock : Vector Byte 64 := blockAt 64 (padMd .bigEndian [0x61, 0x62, 0x63]) 0

/-- W0, W15, W16, W17, W18, W19 and W79 (2.8). -/
theorem test_sha1_schedule :
    let W := sha1Schedule abcBlock
    W[0] = 0x61626380 ∧ W[15] = 0x00000018 ∧ W[16] = 0xc2c4c700 ∧ W[17] = 0x00000000 ∧ W[18] = 0x00000030 ∧
      W[19] = 0x85898e01 ∧ W[79] = 0x822e0879 := by decide +kernel



/-! ### The commands, each as the first step from the state named (2.5 to 2.10) -/

theorem test_nop : statusAfter State.reset 0x00 0x00000000 = true := by decide

theorem test_init_md2 : statusAfter State.reset 0x01 0x00000002 = true := by decide

/-- "after INIT md5 and FINAL 0 (0x00000204)": a restart, with DIG = 0^20 and LEN = 0 (2.10). -/
theorem test_init_md4 :
    aft (step (({ finished 2 with len := 5, dig := Vector.replicate 20 0xaa } : State).withFetchWord 32 0x11))
      (fun t => statusWord t == 0x00000102 && t.len == 0 && t.dig == Vector.replicate 20 0) = true := by decide +kernel

theorem test_init_md5 :
    statusAfter State.reset 0x21 0x00000202 = true ∧ statusAfter (failed 3) 0x21 0x00000038 = true := by decide

theorem test_init_sha1 : statusAfter State.reset 0x31 0x00000302 = true := by decide
theorem test_init_sha224 : statusAfter State.reset 0x41 0x00000028 = true := by decide
theorem test_init_sha256 : statusAfter State.reset 0x51 0x00000028 = true := by decide
theorem test_init_sha384 : statusAfter State.reset 0x61 0x00000028 = true := by decide
theorem test_init_sha512 : statusAfter State.reset 0x71 0x00000028 = true := by decide

/-- CLRERR in a failed state, and one that clears OVR only. -/
theorem test_clrerr :
    statusAfter (failed 3) 0x04 0x00000000 = true ∧
    statusAfter { started 2 [] with ovr := true } 0x04 0x00000202 = true := by decide

/-- SRST clears BLK (P13). -/
theorem test_srst :
    aft (step ((started 3 [0x61, 0x62, 0x63]).withFetchWord 32 0x05))
      (fun t => statusWord t == 0 && t.blk == Vector.replicate 64 0 && readValue (.blk 0) t == 0) = true := by decide +kernel

/-- Illegal words in IDLE, in ABSORB, and with an error recorded (2.10, P9). -/
theorem test_illegal_words :
    statusAfter State.reset 0x81 0x00000018 = true ∧ statusAfter State.reset 0x1042 0x00000018 = true ∧
    statusAfter (started 2 []) 0x83 0x0000021a = true ∧ statusAfter (failed 1) 0x12 0x00000018 = true := by decide

/-- BLOCK and FINAL in the wrong phase, and FINAL 16 under MD2 (2.10). -/
theorem test_phase_errors :
    statusAfter State.reset 0x02 0x00000038 = true ∧ statusAfter State.reset 0x1003 0x00000038 = true ∧
    statusAfter (finished 1) 0x02 0x0000014c = true ∧ statusAfter (finished 1) 0x03 0x0000014c = true ∧
    statusAfter (started 0 []) 0x1003 0x0000005a = true := by decide

/-- BLOCK of the bytes 00 .. 3f: the chaining registers of MD4 (2.6). -/
theorem test_block_md4 :
    aft (exec .block (started 1 (countUp 64)))
      (fun t => quadOf t.algo == ⟨0x4ecabfd4, 0xa26ef3a6, 0xc90c1563, 0xdb599a46⟩ && t.len == 64 &&
        statusWord t == 0x00000102) = true := by decide +kernel

/-- FINAL 3 with stale bytes from BLK[3] on: the digest V8 of SHA-1 (2.10, tail corner). -/
theorem test_final_sha1 :
    aft (exec (.final 3) (started 3 ([0x61, 0x62, 0x63, 0xff] ++ List.replicate 60 0xde)))
      (fun t => t.dig.toList == [0xa9, 0x99, 0x3e, 0x36, 0x47, 0x06, 0x81, 0x6a, 0xba, 0x3e, 0x25, 0x71, 0x78, 0x50, 0xc2, 0x6c,
         0x9c, 0xd0, 0xd8, 0x9d] &&
        t.len == 3 && statusWord t == 0x00000304) = true := by decide +kernel

/-- FINAL 7 of "tihi xd": the digest V6 of MD5, with DIG[16..20] = 0 (1.1). -/
theorem test_final_md5 :
    aft (exec (.final 7) (started 2 [0x74, 0x69, 0x68, 0x69, 0x20, 0x78, 0x64]))
      (fun t => t.dig.toList == [0x73, 0xe5, 0x18, 0x61, 0xb6, 0x5c, 0x1e, 0x83, 0xd6, 0x13, 0x6f, 0xb6, 0xa0, 0x02, 0x58, 0x5e,
         0x00, 0x00, 0x00, 0x00] &&
        t.len == 7 && statusWord t == 0x00000204) = true := by decide +kernel

/-- FINAL 3 of "abc": the digest V2 of MD2 (1.1). -/
theorem test_final_md2 :
    aft (exec (.final 3) (started 0 [0x61, 0x62, 0x63]))
      (fun t => t.dig.toList == [0xda, 0x85, 0x3b, 0x0d, 0x3f, 0x88, 0xd9, 0x9b, 0x30, 0x28, 0x3a, 0x69, 0xe6, 0xde, 0xd6, 0xbb,
         0x00, 0x00, 0x00, 0x00] &&
        t.len == 3 && statusWord t == 0x00000004) = true := by decide +kernel


/-! ### The bus (2.11) -/

theorem test_bus_reads_from_reset :
    ([0x00, 0x04, 0x08, 0x0C, 0x10, 0x14, 0x18, 0xFC].map fun off : BitVec 8 =>
      aft (hostStep (.read .bits32 off) State.reset) fun t =>
        t.reads == [if off = 0x00 then 0x4C4F5245 else if off = 0x0C then 0x0000000F else 0]) =
      List.replicate 8 true := by decide

/-- Writes to ID, STATUS and DIG0 are ignored. -/
theorem test_bus_read_only :
    ([0x00, 0x08, 0x80].map fun off : BitVec 8 =>
      aft (hostStep (.write .bits32 off 0xFFFFFFFF) State.reset) fun t => t == State.reset) =
      List.replicate 3 true := by decide

theorem test_bus_block_words :
    aft (hostStep (.write .bits32 0x40 0x00636261) State.reset)
      (fun t => t.blk.toList.take 4 == [0x61, 0x62, 0x63, 0x00] && readValue (.blk 0) t == 0x00636261) = true ∧
    aft (hostStep (.write .bits32 0x7C 0x3f3e3d3c) State.reset)
      (fun t => t.blk.toList.drop 60 == [0x3c, 0x3d, 0x3e, 0x3f] && readValue (.blk 15) t == 0x3f3e3d3c) = true := by
  decide

/-- An 8-bit access, and a 32-bit access at 0x02: no step (U5). -/
theorem test_bus_not_admitted :
    admitted .bits8 0x40 = none ∧ admitted .bits32 0x02 = none ∧ admitted .bits32 0xFC = some .reserved ∧
    admitted .bits32 0x90 = some (.dig 4) ∧ admitted .bits32 0x7C = some (.blk 15) := by decide

/-- The overrun of P6: BLK0 and CMD written while INIT sha1 is pending; STATUS then, and after the engine step. -/
def overrun : State := { State.reset with
  inputs := [⟨0, storeWord 0x04 0x31⟩, ⟨1, storeWord 0x40 0x11223344⟩, ⟨1, storeWord 0x04 0x00⟩,
    ⟨1, loadWord 0x08⟩, ⟨0, .wait⟩, ⟨0, loadWord 0x08⟩, ⟨0, loadWord 0x40⟩] }

theorem test_overrun :
    aft (Host.Core.run Sys2Proof.core 8 overrun)
      (fun t => t.reads == [0x00000000, 0x00000b02, 0x00000b02, 0x00000801] && t.inputs == []) = true := by
  decide +kernel

/-- The program of P7: `wait` polls twice before the engine step, and `checkerr` finds UNIMPL_ALG. With BUSY = 0
the loop ends after one read. -/
theorem test_wait_and_checkerr :
    aft (Host.Core.run Sys2Proof.core 6 { State.reset with
        inputs := [⟨0, storeWord 0x04 0x51⟩, ⟨2, .wait⟩, ⟨0, .checkErr⟩] })
      (fun t => t.reads == [0x00000028, 0x00000028, 0x00000001, 0x00000001] && t.checks == [some 2] &&
        t.inputs == []) = true ∧
    aft (step { State.reset with inputs := [⟨2, .wait⟩] }) (fun t => t.reads == [0x00000000] && t.inputs == []) =
      true := by
  decide +kernel

/-- The program P2, `hash(sha1, "abc")`, with the `checkerr` of 45_commands.md R283. -/
theorem test_hash_program :
    programOps [.hash .sha1 [0x61, 0x62, 0x63]] = some
      ([.write .bits32 0x04 0x00000031, .wait, .write .bits32 0x40 0x00636261, .write .bits32 0x04 0x00000303,
        .wait, .checkErr] ++ ([0x80, 0x84, 0x88, 0x8C, 0x90].map fun off => .read .bits32 off)) := by decide +kernel

/-! ### The fetch -/

/-- The first step from reset runs the word placed. -/
theorem test_fetch : aft (step (State.reset.withFetchWord 32 0x11)) (fun t => t.alg == algMd4) = true := by decide
/-! ### Witnesses: the hypotheses of each obligation that has any -/

/-- Every command reaches a next state from a state with PHASE and ALG in range. -/
theorem reaches {s : State} (i : Instr) (h : fieldsInRange s = true) : ∃ t, exec i s = .next t :=
  exec_total (fieldsInRange_iff.mp h).1 (fieldsInRange_iff.mp h).2.2 i

/-- The three reasons a word is illegal. -/
theorem witness_IllegalWordsRaiseIllegalCmd :
    decode 0x00004003 = .error .reservedBit ∧ decode 0x0000000f = .error .reservedOp ∧
    decode 0x00000102 = .error .unusedField := by decide

theorem witness_StepRunsPendingCommand :
    let s := (started 3 []).withFetchWord 32 0x3F03
    fieldsInRange s = true ∧ engineMoves s = true ∧ decode s.pend = .ok (.final 63) := by decide

/-- With no error recorded, and with one. -/
theorem witness_StepRecordsIllegalWord :
    let s := State.reset.withFetchWord 32 0x81
    let t := (failed 3).withFetchWord 32 0x81
    fieldsInRange s = true ∧ engineMoves s = true ∧ decode s.pend = .error .reservedBit ∧ s.err = false ∧
    fieldsInRange t = true ∧ engineMoves t = true ∧ decode t.pend = .error .reservedBit ∧ t.err = true := by decide

theorem witness_IdleBlockHoldsItsState :
    (finished 1).busy = false ∧ fieldsInRange (finished 1) = true ∧ (finished 1).inputs = [] := by decide

theorem witness_EngineStepCompletes : fieldsInRange (State.reset.withFetchWord 32 0x0f) = true := by decide

/-- A `wait` that polls before the pending command, and a reset that comes before it. -/
theorem witness_PendingCommandGetsItsTurn :
    let s := { State.reset.withFetchWord 32 0x11 with inputs := [⟨2, .wait⟩] }
    let t := { State.reset.withFetchWord 32 0x11 with inputs := [⟨1, .reset⟩] }
    fieldsInRange s = true ∧ s.busy = true ∧ engineMoves s = false ∧
    fieldsInRange t = true ∧ t.busy = true ∧ engineMoves t = false := by decide

theorem witness_InitMd2Starts : (finished 2).err = false := by decide
theorem witness_InitMd4Starts : (started 1 [0x61]).err = false := by decide
theorem witness_InitMd5Starts : State.reset.err = false := by decide
theorem witness_InitSha1Starts : (started 0 [0x61]).err = false := by decide

theorem witness_InitSha2RaisesUnimplAlg :
    (finished 2).err = false ∧
    Instr.initSha512 ∈ [Instr.initSha224, .initSha256, .initSha384, .initSha512] := by decide

/-- Bit 3 of CAPS is 1, bit 4 is 0. -/
theorem witness_CapsTellsWhichInitSucceeds :
    State.reset.err = false ∧ capsWord.getLsbD (3 : Fin 8).val = true ∧ capsWord.getLsbD (4 : Fin 8).val = false := by
  decide

/-- A reset before a pending command. -/
theorem witness_ResetInputEqualsSrst :
    let s := { (started 1 [0x61]).withFetchWord 32 0x02 with inputs := [⟨1, .reset⟩, ⟨0, loadWord 0x08⟩] }
    fieldsInRange s = true ∧ s.inputs = ⟨1, .reset⟩ :: [⟨0, loadWord 0x08⟩] ∧ 1 ≠ 0 := by decide

/-- FINAL at the last legal tail. -/
theorem witness_Md2BlockAndFinal :
    (started 0 []).err = false ∧ (started 0 []).phase = 1 ∧ (started 0 []).alg = 0 ∧ (15 : BitVec 6).toNat < 16 := by
  decide

theorem witness_Md4BlockAndFinal :
    (started 1 []).err = false ∧ (started 1 []).phase = 1 ∧ (started 1 []).alg = 1 := by decide

theorem witness_Md5BlockAndFinal :
    (started 2 []).err = false ∧ (started 2 []).phase = 1 ∧ (started 2 []).alg = 2 := by decide

theorem witness_Sha1BlockAndFinal :
    (started 3 []).err = false ∧ (started 3 []).phase = 1 ∧ (started 3 []).alg = 3 := by decide

/-- FINAL 3 with other bytes from BLK[3] on, and BLOCK under MD2 with other bytes from BLK[16] on. -/
theorem witness_StaleBlkBytesDoNotMatter :
    (∃ t, (∀ i : Fin 64, i.val < (3 : BitVec 6).toNat →
        (blockAt 64 [0x61, 0x62, 0x63, 0xff] 0)[i] = (started 3 [0x61, 0x62, 0x63]).blk[i]) ∧
      exec (.final 3) (started 3 [0x61, 0x62, 0x63]) = .next t) ∧
    (∃ t, (started 0 (countUp 16)).alg = 0 ∧
      (∀ i : Fin 64, i.val < 16 → (blockAt 64 (countUp 20) 0)[i] = (started 0 (countUp 16)).blk[i]) ∧
      exec .block (started 0 (countUp 16)) = .next t) := by
  refine ⟨?_, ?_⟩
  · obtain ⟨t, ht⟩ := reaches (.final 3) (s := started 3 [0x61, 0x62, 0x63]) (by decide)
    exact ⟨t, by decide +kernel, ht⟩
  · obtain ⟨t, ht⟩ := reaches .block (s := started 0 (countUp 16)) (by decide +kernel)
    exact ⟨t, rfl, by decide +kernel, ht⟩

/-- One state for each clause. -/
theorem witness_ErrorsFollowPriority :
    (State.reset.err = false ∧ decode 0x00001042 = .error .unusedField) ∧
    ((failed 1).err = true ∧ gatedByError .block = true) ∧
    (State.reset.err = false ∧ State.reset.phase = 0) ∧
    ((finished 1).err = false ∧ (finished 1).phase = 2) ∧
    ((started 0 []).err = false ∧ (started 0 []).phase = 1 ∧ (started 0 []).alg = 0 ∧ 16 ≤ (16 : BitVec 6).toNat) := by
  decide

/-- BLOCK in IDLE raises; with an error recorded it is dropped. -/
theorem witness_FailedCommandsHaveNoOtherEffect :
    (∃ t, executeWord 0x02 State.reset = .next t ∧ State.reset.err = false ∧ t.err = true) ∧
    (∃ t, executeWord 0x02 (failed 1) = .next t ∧ (failed 1).err = true ∧
      ∀ i, decode 0x00000002 = .ok i → gatedByError i = true) := by
  refine ⟨?_, ?_⟩
  · obtain ⟨t, ht, he⟩ := aft_next (o := executeWord 0x02 State.reset) (p := fun t => t.err) (by decide)
    exact ⟨t, ht, by decide, he⟩
  · obtain ⟨t, ht, _⟩ := aft_next (o := executeWord 0x02 (failed 1)) (p := fun t => t.err) (by decide)
    refine ⟨t, ht, by decide, fun i hi => ?_⟩
    have hd : decode 0x00000002 = .ok .block := by decide
    rw [hd] at hi
    cases hi
    rfl

theorem witness_FirstErrorIsKept :
    ∃ t, executeWord 0x12 (failed 1) = .next t ∧ (failed 1).err = true ∧ (0x12 : Word) ≠ 0x04 ∧
      (0x12 : Word) ≠ 0x05 := by
  obtain ⟨t, ht, _⟩ := aft_next (o := executeWord 0x12 (failed 1)) (p := fun t => t.err) (by decide)
  exact ⟨t, ht, by decide, by decide, by decide⟩

/-- A phase that moves by INIT, by FINAL, by SRST and by the reset input. -/
theorem witness_PhaseMovesOnlyAsListed :
    (∃ t, exec .initMd4 State.reset = .next t ∧ t.phase ≠ State.reset.phase) ∧
    (∃ t, exec (.final 0) (started 1 []) = .next t ∧ t.phase ≠ (started 1 []).phase) ∧
    (∃ t, exec .srst (finished 1) = .next t ∧ t.phase ≠ (finished 1).phase) ∧
    (∃ t, hostStep .reset (finished 1) = .next t ∧ t.phase ≠ (finished 1).phase) := by
  refine ⟨⟨_, rfl, by decide⟩, ?_, ⟨_, rfl, by decide⟩, ⟨_, rfl, by decide⟩⟩
  obtain ⟨t, ht, hp⟩ := aft_next (o := exec (.final 0) (started 1 [])) (p := fun t => t.phase == 2)
    (by decide +kernel)
  exact ⟨t, ht, by rw [eq_of_beq hp]; decide⟩

theorem witness_CommandsLeaveBlkAndPend :
    (∃ t, exec .block (started 1 (countUp 64)) = .next t) ∧ Instr.block ≠ .srst :=
  ⟨reaches _ (by decide +kernel), by decide⟩

/-- A command of each clause. -/
theorem witness_InitAndControlFrames :
    (∃ t, exec .nop State.reset = .next t) ∧ (∃ t, exec .clrerr (failed 1) = .next t) ∧
    (∃ t, exec .initMd2 State.reset = .next t) ∧ (∃ t, exec .initSha1 State.reset = .next t) ∧
    (∃ t, exec .initSha224 State.reset = .next t) :=
  ⟨reaches _ (by decide), reaches _ (by decide), reaches _ (by decide), reaches _ (by decide),
    reaches _ (by decide)⟩

/-- Under MD2, under MD4, under SHA-1, in IDLE, and with an error recorded. -/
theorem witness_BlockFrame :
    (∃ t, exec .block (started 0 []) = .next t ∧ (started 0 []).alg = 0) ∧
    (∃ t, exec .block (started 1 []) = .next t ∧ (started 1 []).alg = 1) ∧
    (∃ t, exec .block (started 3 []) = .next t ∧ (started 3 []).alg ≠ 0) ∧
    (∃ t, exec .block State.reset = .next t ∧ State.reset.phase ≠ 1) ∧
    (∃ t, exec .block (failed 1) = .next t ∧ (failed 1).err = true) := by
  refine ⟨?_, ?_, ?_, ?_, ?_⟩
  · obtain ⟨t, ht⟩ := reaches .block (s := started 0 []) (by decide)
    exact ⟨t, ht, rfl⟩
  · obtain ⟨t, ht⟩ := reaches .block (s := started 1 []) (by decide)
    exact ⟨t, ht, rfl⟩
  · obtain ⟨t, ht⟩ := reaches .block (s := started 3 []) (by decide)
    exact ⟨t, ht, by decide⟩
  · obtain ⟨t, ht⟩ := reaches .block (s := State.reset) (by decide)
    exact ⟨t, ht, by decide⟩
  · obtain ⟨t, ht⟩ := reaches .block (s := failed 1) (by decide)
    exact ⟨t, ht, by decide⟩

/-- Under MD2, MD5 and SHA-1, in DONE, and MD2 with a tail that is too long. -/
theorem witness_FinalFrame :
    (∃ t, exec (.final 15) (started 0 []) = .next t ∧ (started 0 []).alg = 0) ∧
    (∃ t, exec (.final 63) (started 2 []) = .next t ∧ (started 2 []).alg = 2) ∧
    (∃ t, exec (.final 56) (started 3 []) = .next t ∧ (started 3 []).alg ≠ 0) ∧
    (∃ t, exec (.final 0) (finished 1) = .next t ∧ (finished 1).phase ≠ 1) ∧
    (∃ t, exec (.final 16) (started 0 []) = .next t ∧ (started 0 []).alg = 0 ∧ 16 ≤ (16 : BitVec 6).toNat) := by
  refine ⟨?_, ?_, ?_, ?_, ?_⟩
  · obtain ⟨t, ht⟩ := reaches (.final 15) (s := started 0 []) (by decide)
    exact ⟨t, ht, rfl⟩
  · obtain ⟨t, ht⟩ := reaches (.final 63) (s := started 2 []) (by decide)
    exact ⟨t, ht, rfl⟩
  · obtain ⟨t, ht⟩ := reaches (.final 56) (s := started 3 []) (by decide)
    exact ⟨t, ht, by decide⟩
  · obtain ⟨t, ht⟩ := reaches (.final 0) (s := finished 1) (by decide)
    exact ⟨t, ht, by decide⟩
  · obtain ⟨t, ht⟩ := reaches (.final 16) (s := started 0 []) (by decide)
    exact ⟨t, ht, rfl, by decide⟩

/-- The first and the last offset of each clause; a read that is exact needs BUSY = 0. -/
theorem witness_BusReadsReturnTheRegister :
    (∀ off ∈ ([0x00, 0x04, 0x08, 0x0C, 0x10, 0x14, 0x18, 0x3C, 0x40, 0x7C, 0x80, 0x90, 0x94, 0xFC] : List (BitVec 8)),
      off.toNat % 4 = 0) ∧
    (0x40 : BitVec 8).toNat = 0x40 + 4 * (0 : Fin 16).val ∧ (0x7C : BitVec 8).toNat = 0x40 + 4 * (15 : Fin 16).val ∧
    (0x80 : BitVec 8).toNat = 0x80 + 4 * (0 : Fin 5).val ∧ (0x90 : BitVec 8).toNat = 0x80 + 4 * (4 : Fin 5).val ∧
    State.reset.busy = false ∧ (0x18 : BitVec 8).toNat = 0x18 ∧ (0x3C : BitVec 8).toNat = 0x3C ∧
    0x94 ≤ (0x94 : BitVec 8).toNat ∧ 0x94 ≤ (0xFC : BitVec 8).toNat := by decide

/-- CMD and BLK15 while BUSY = 0 and while BUSY = 1, and the offsets at the edges of BLK. -/
theorem witness_BusWritesReachTheRegister :
    (0x7C : BitVec 8).toNat % 4 = 0 ∧ (0x7C : BitVec 8).toNat = 0x40 + 4 * (15 : Fin 16).val ∧
    State.reset.busy = false ∧ (State.reset.withFetchWord 32 0x11).busy = true ∧
    ((0x3C : BitVec 8) ≠ 0x04 ∧ ¬(0x40 ≤ (0x3C : BitVec 8).toNat ∧ (0x3C : BitVec 8).toNat ≤ 0x7C)) ∧
    ((0x80 : BitVec 8) ≠ 0x04 ∧ ¬(0x40 ≤ (0x80 : BitVec 8).toNat ∧ (0x80 : BitVec 8).toNat ≤ 0x7C)) := by decide

theorem witness_BlkWordReadsBack :
    State.reset.busy = false ∧ (∃ t, hostStep (.write .bits32 (offBlk 15) 0x3f3e3d3c) State.reset = .next t) ∧
    (14 : Fin 16) ≠ 15 :=
  ⟨by decide, hostStep_enabled _ (by decide), by decide⟩

/-- A write to BLK0, a read of DIG0, and a `wait`, while a command is pending. -/
theorem witness_PendingCommandKeepsItsBlk :
    (State.reset.withFetchWord 32 0x02).busy = true ∧
    (∃ t, hostStep (.write .bits32 0x40 5) (State.reset.withFetchWord 32 0x02) = .next t) ∧
    (∃ t, hostStep (.read .bits32 0x80) (State.reset.withFetchWord 32 0x02) = .next t) ∧
    (∃ t, hostStep .wait (State.reset.withFetchWord 32 0x02) = .next t) ∧ HostOp.read .bits32 0x80 ≠ .reset :=
  ⟨by decide, hostStep_enabled _ (by decide), hostStep_enabled _ (by decide), ⟨_, rfl⟩, by decide⟩

/-- A 16-bit access at offset 0, a 32-bit access at offset 2, and an admitted one. -/
theorem witness_NarrowOrMisalignedAccessIsStuck :
    let s := { State.reset with inputs := [⟨0, .read .bits16 0x00⟩, ⟨0, loadWord 0x08⟩] }
    let t := { State.reset with inputs := [⟨0, .write .bits32 0x02 5⟩] }
    let u := { State.reset with inputs := [⟨0, storeWord 0xFC 5⟩] }
    (AccessWidth.bits16 ≠ .bits32 ∧ fieldsInRange s = true ∧ s.busy = false ∧
      ∀ i ∈ [(⟨0, loadWord 0x08⟩ : Input)], i.op ≠ .reset) ∧
    ((0x02 : BitVec 8).toNat % 4 ≠ 0 ∧ fieldsInRange t = true ∧ t.busy = false) ∧
    ((0xFC : BitVec 8).toNat % 4 = 0 ∧ fieldsInRange u = true ∧ u.busy = false) := by decide

/-- The last address of the window, and the first after it. -/
theorem witness_AddressesReachWindowOffsets :
    (0xFF : BitVec 8).toNat = 255 ∧ Config.base + 256 ≤ Config.base + 256 := ⟨by decide, le_refl _⟩

/-- One full block and a tail of 63 bytes; one MD2 block and a tail of 15. -/
theorem witness_TailPaddingCompletesMessage :
    ((List.replicate 64 0 : List Byte).length % 64 = 0 ∧ (List.replicate 63 0 : List Byte).length < 64) ∧
    ((List.replicate 16 0 : List Byte).length % 16 = 0 ∧ (List.replicate 15 0 : List Byte).length < 16) := by decide

theorem witness_PaddingIsAligned :
    (List.replicate 63 0 : List Byte).length < 64 ∧ (List.replicate 15 0 : List Byte).length < 16 := by decide

/-- The last tail of one block, the first of two. -/
theorem witness_TailPadsToOneOrTwoBlocks :
    (List.replicate 55 0 : List Byte).length < 64 ∧ (List.replicate 55 0 : List Byte).length % 64 ≤ 55 ∧
    (List.replicate 56 0 : List Byte).length < 64 ∧ 56 ≤ (List.replicate 56 0 : List Byte).length % 64 := by decide

theorem witness_LengthFieldWraps : (3 : Length).toNat % 2 ^ 61 = (0x2000000000000003 : Length).toNat % 2 ^ 61 := by
  decide

/-- A message of MD5 in progress, with an error recorded and a command pending. -/
def midMessage : State := { (started 2 [0x61]).withFetchWord 32 0x04 with err := true, errCode := 1, len := 64 }

theorem midMessage_inv : StateInv midMessage :=
  ⟨by decide, by decide, by decide, by decide, by decide, by decide, by decide⟩

theorem witness_StepKeepsInvariant : StateInv midMessage ∧ ∃ t, step midMessage = .next t := by
  obtain ⟨t, ht, _⟩ := aft_next (o := step midMessage) (p := fun t => t.phase == 1) (by decide)
  exact ⟨midMessage_inv, t, ht⟩

theorem witness_EngineInvariantIsUnreachable : StateInv midMessage := midMessage_inv

/-- Two states that differ in PEND, in H0 and in STEP, with an MD2 message in progress. -/
theorem witness_UnspecifiedStateIsUnobservable :
    let s := started 0 [0x61]
    let t := { s with pend := 7, algo := { s.algo with h0 := 5 }, micro := { s.micro with step := 9 } }
    SameObserved s t ∧ s ≠ t := by
  refine ⟨⟨rfl, rfl, rfl, rfl, rfl, rfl, rfl, rfl, rfl, rfl, rfl, rfl, rfl, fun h => ?_, fun _ => ?_⟩, by decide +kernel⟩
  · cases h
  · exact ⟨fun _ => ⟨rfl, rfl, rfl⟩, fun h => absurd h (by decide), fun h => absurd h (by decide)⟩

/-- The empty message, its two waits polling differently, and 65 bytes: one block and a tail. -/
theorem witness_HashComputesWholeMessageDigest :
    let s := { State.reset with inputs := (hashOps .md5 []).zipIdx.map fun p => ⟨p.2, p.1⟩ }
    let t := { finished 1 with inputs := (hashOps .sha1 (countUp 65)).map fun op => ⟨0, op⟩ }
    (StateInv s ∧ s.busy = false ∧ s.err = false ∧ s.ovr = false ∧ s.inputs.map Input.op = hashOps .md5 []) ∧
    (StateInv t ∧ t.busy = false ∧ t.err = false ∧ t.ovr = false ∧
      t.inputs.map Input.op = hashOps .sha1 (countUp 65)) :=
  ⟨⟨⟨by decide, by decide, by decide, by decide, by decide, by decide, by decide⟩, rfl, rfl, rfl, by decide⟩,
    ⟨⟨by decide, by decide, by decide, by decide, by decide, by decide, by decide⟩, rfl, rfl, rfl,
      by simp [Function.comp_def]⟩⟩

/-- No poll left before the pending command, two left, and no command pending. -/
theorem witness_WaitPollsUntilIdle :
    let s := { State.reset.withFetchWord 32 0x11 with inputs := [⟨0, .wait⟩] }
    let t := { State.reset.withFetchWord 32 0x11 with inputs := [⟨2, .wait⟩] }
    let u := { State.reset with inputs := [⟨2, .wait⟩] }
    (fieldsInRange s = true ∧ s.inputs = ⟨0, .wait⟩ :: [] ∧ s.busy = true) ∧
    (fieldsInRange t = true ∧ t.inputs = ⟨2, .wait⟩ :: [] ∧ 2 ≠ 0) ∧
    (fieldsInRange u = true ∧ u.inputs = ⟨2, .wait⟩ :: [] ∧ u.busy = false) := by decide

/-- With an error recorded, and with none. -/
theorem witness_CheckerrTakesErrorCode :
    let s := { failed 3 with inputs := [⟨0, .checkErr⟩] }
    let t := { State.reset with inputs := [⟨0, .checkErr⟩] }
    (fieldsInRange s = true ∧ s.inputs = ⟨0, .checkErr⟩ :: [] ∧ s.busy = false ∧ s.err = true) ∧
    (fieldsInRange t = true ∧ t.inputs = ⟨0, .checkErr⟩ :: [] ∧ t.busy = false ∧ t.err = false) := by decide

/-- A 16-bit read while a command is pending, with a reset to come; and an admitted access. -/
theorem witness_HostStaysAtNonAdmittedAccess :
    let s := { State.reset.withFetchWord 32 0x11 with inputs := [⟨1, .read .bits16 0x00⟩, ⟨1, .reset⟩] }
    AccessWidth.bits16 ≠ .bits32 ∧ s.inputs = ⟨1, .read .bits16 0x00⟩ :: [⟨1, .reset⟩] ∧ (∃ t, step s = .next t) ∧
    (0xFC : BitVec 8).toNat % 4 = 0 := by
  refine ⟨by decide, rfl, ?_, by decide⟩
  obtain ⟨t, ht, _⟩ := aft_next (o := step { State.reset.withFetchWord 32 0x11 with
    inputs := [⟨1, .read .bits16 0x00⟩, ⟨1, .reset⟩] }) (p := fun t => t.phase == 0) (by decide)
  exact ⟨t, ht⟩

end Sys2Proof.Tests
end

section
/-! SUPPORT. The statements about the state of 10_state.md: CAPS (R35) and the MD2 checksum link (R27). -/

namespace Sys2Proof.Machine

/-! ### INIT by its algorithm code -/

/-- INIT(a) is `do_init(a)` behind the error gate, for every code (45_commands.md R273, R275). -/
theorem exec_initOfCode (code : BitVec 3) (s : State) :
    exec (initOfCode code) s = throughErrorGate s (.next (doInit code s)) := by
  have codes : ∀ c : BitVec 3, c = 0 ∨ c = 1 ∨ c = 2 ∨ c = 3 ∨ c = 4 ∨ c = 5 ∨ c = 6 ∨ c = 7 := by decide
  obtain rfl | rfl | rfl | rfl | rfl | rfl | rfl | rfl := codes code <;> rfl

/-- `do_init` of a reserved code records an error; of an implemented one it leaves ERR as it was (R275). -/
theorem doInit_err (code : BitVec 3) (s : State) :
    (doInit code s).err = if 4 ≤ code.toNat then true else s.err := by
  unfold doInit
  split
  · exact raiseError_err _ s
  · exact startMessage_err _ _ s

/-- With ERR = 0, INIT completes with ERR = 0 exactly for the implemented codes 0-3 (10_state.md R35). -/
theorem initOfCode_succeeds_iff {s : State} (he : s.err = false) (code : BitVec 3) :
    (∃ t, exec (initOfCode code) s = .next t ∧ t.err = false) ↔ code.toNat < 4 := by
  have hx : exec (initOfCode code) s = .next (doInit code s) := by
    rw [exec_initOfCode, throughErrorGate_of_ok _ he]
  calc (∃ t, exec (initOfCode code) s = .next t ∧ t.err = false)
      ↔ (doInit code s).err = false := by simp [hx]
    _ ↔ code.toNat < 4 := by simp [doInit_err, he]

/-! ### CAPS -/

/-- The bits of CAPS that are 1 are those below 4. -/
theorem capsWord_getLsbD_iff (k : Fin 8) : capsWord.getLsbD k.val = true ↔ k.val < 4 := by
  revert k
  decide

/-- Settles O16: bit k of CAPS and the success of INIT(k) are both `k < 4`. -/
theorem capsTellsWhichInitSucceeds : Obligations.CapsTellsWhichInitSucceeds := by
  refine ⟨fun s v => ⟨rfl, rfl⟩, fun s k he => ?_⟩
  have hk : (BitVec.ofNat 3 k.val).toNat = k.val := Nat.mod_eq_of_lt k.isLt
  rw [capsWord_getLsbD_iff, initOfCode_succeeds_iff he, hk]

/-! ### The MD2 checksum link -/

/-- Each byte of the checksum update leaves L equal to the byte of C it wrote (41_md2.md R154). -/
theorem md2ChecksumByte_link (B : Vector Byte 16) (p : Vector Byte 16 × Byte) (i : Fin 16) :
    (md2ChecksumByte B p i).2 = (md2ChecksumByte B p i).1[i] := by
  simp [md2ChecksumByte]

/-- Settles O47: the update ends with byte 15, and L is the byte of C written last. -/
theorem checksumLinkIsLastByte : Obligations.ChecksumLinkIsLastByte := by
  intro C L B
  rw [md2ChecksumUpdate, List.finRange_succ_last, List.foldl_append]
  exact md2ChecksumByte_link B _ (Fin.last 15)

end Sys2Proof.Machine
end

section
/-! SUPPORT. The statements of 20_memory.md: which accesses the host can make (R62), and host addresses (R61). -/

namespace Sys2Proof.Machine

/-! ### Accesses that are admitted -/

/-- An offset holds a register exactly at the multiples of 4 (20_memory.md R62). -/
theorem windowReg_isSome_iff (off : BitVec 8) : (windowReg off).isSome = true ↔ off.toNat % 4 = 0 := by
  by_cases h : off.toNat % 4 = 0
  · refine iff_of_true ?_ h
    rw [windowReg, if_neg (not_not.mpr h)]
    repeat' split
    all_goals rfl
  · simp [windowReg, h]

/-- Admitted are the 32-bit accesses at a multiple of 4 (R62). -/
theorem admitted_isSome_iff (width : AccessWidth) (off : BitVec 8) :
    (admitted width off).isSome = true ↔ width = .bits32 ∧ off.toNat % 4 = 0 := by
  unfold admitted
  split
  case isTrue h => simp [h, windowReg_isSome_iff]
  case isFalse h => simp [h]

/-- The host can make an access exactly if it is admitted. -/
theorem hostOpEnabled_access_iff {width : AccessWidth} {off : BitVec 8} {v : Word} {op : HostOp}
    (h : op = .read width off ∨ op = .write width off v) :
    hostOpEnabled op = true ↔ width = .bits32 ∧ off.toNat % 4 = 0 := by
  rcases h with rfl | rfl <;> exact admitted_isSome_iff width off

/-- A move that reaches a next state is one the outside can make. -/
theorem hostOpEnabled_of_next {op : HostOp} {s t : State} (h : hostStep op s = .next t) :
    hostOpEnabled op = true := by
  obtain ⟨_, _, _, rfl, hr, _⟩ | ⟨_, _, _, _, rfl, hr, _⟩ | ⟨rfl, _⟩ | ⟨rfl, _⟩ | ⟨rfl, _⟩ := hostStep_next h
  · simp [hostOpEnabled, hr]
  · simp [hostOpEnabled, hr]
  · rfl
  · rfl
  · rfl

/-! ### Steps with the host stuck -/

/-- Executing a word, legal or not, leaves the inputs to come and what the host has read and found. -/
theorem executeWord_outside {w : Word} {s t : State} (h : executeWord w s = .next t) :
    t.inputs = s.inputs ∧ t.reads = s.reads ∧ t.checks = s.checks := by
  unfold executeWord at h
  split at h
  · cases h
    exact ⟨raiseError_inputs _ s, raiseError_reads _ s, raiseError_checks _ s⟩
  · exact exec_outside h

/-- An engine step leaves the inputs to come and what the host has read and found. -/
theorem engineStep_outside {s t : State} (h : engineStep s = .next t) :
    t.inputs = s.inputs ∧ t.reads = s.reads ∧ t.checks = s.checks := by
  obtain ⟨u, hu, rfl⟩ := engineStep_next h
  simpa using executeWord_outside hu

/-- The next input that can move, when the first cannot: a reset, after which the first one is still next. -/
theorem nextInput_of_stuck {i : Input} {rest : List Input} {p : Input × List Input}
    (hi : hostOpEnabled i.op = false) (h : nextInput (i :: rest) = some p) :
    p.1.op = .reset ∧ ∃ later, p.2 = i :: later := by
  rw [nextInput, if_neg (by simp [hi]), Option.map_eq_some_iff] at h
  obtain ⟨q, hq, rfl⟩ := h
  exact ⟨(firstReset_some hq).1, q.2, rfl⟩

/-- A step with the host stuck is the engine's, or a reset with the stuck input still next (R62). -/
theorem step_of_stuck {s t : State} {i : Input} {rest : List Input} (hs : s.inputs = i :: rest)
    (hi : hostOpEnabled i.op = false) (h : step s = .next t) :
    engineStep s = .next t ∨ ∃ later, t = resetBlock { s with inputs := i :: later } := by
  obtain ⟨_, ⟨_, u, hu, rfl⟩ | ⟨_, hnil, _⟩ | ⟨_, p, hp, ht⟩⟩ := step_cases h
  · left
    rw [engineStep, hu, retire]
  · simp [hs] at hnil
  · right
    obtain ⟨hreset, later, hlater⟩ := nextInput_of_stuck hi (hs ▸ hp)
    rw [inputsAfter_access _ _ (by simp [hreset]), hreset, hlater] at ht
    cases ht
    exact ⟨later, rfl⟩

/-- Settles O60: an access that is not admitted is a move the outside cannot make, so a step there is the engine's
or a reset's; an admitted one is a move that it can. -/
theorem hostStaysAtNonAdmittedAccess : Obligations.HostStaysAtNonAdmittedAccess := by
  intro s width off v op hop
  have henabled := hostOpEnabled_access_iff hop
  refine ⟨fun hbad => ?_, fun hw ho => hostStep_enabled s (henabled.mpr ⟨hw, ho⟩)⟩
  have hstuck : ¬hostOpEnabled op = true := by
    rw [henabled]
    rintro ⟨hw, ho⟩
    exact hbad.elim (· hw) (· ho)
  refine ⟨fun t ht => hstuck (hostOpEnabled_of_next ht), fun n rest t hs ht => ?_⟩
  obtain he | ⟨later, rfl⟩ := step_of_stuck hs (by simpa using hstuck) ht
  · obtain ⟨hinputs, hreads, hchecks⟩ := engineStep_outside he
    exact ⟨by rw [hinputs, hs]; rfl, hreads, hchecks, .inl he⟩
  · exact ⟨rfl, rfl, rfl, .inr ⟨⟨n, op⟩ :: later, rfl⟩⟩

/-! ### Host addresses -/

/-- The address of an offset of the window gives that offset (20_memory.md R61). -/
theorem offsetOf_base_add (off : BitVec 8) : offsetOf (Config.base + off.toNat) = some off := by
  have hoff : off.toNat < 256 := off.isLt
  rw [offsetOf, if_pos (by omega), Nat.add_sub_cancel_left, BitVec.ofNat_toNat, BitVec.setWidth_eq]

/-- An address outside the window gives no offset (R61). -/
theorem offsetOf_outside {addr : Nat} (h : addr < Config.base ∨ Config.base + 256 ≤ addr) : offsetOf addr = none :=
  if_neg (by omega)

/-- Settles O39: a host address is an access of the block exactly as it has an offset in the window. -/
theorem addressesReachWindowOffsets : Obligations.AddressesReachWindowOffsets := by
  refine ⟨Nat.mul_mod_right 256 Config.baseIndex, fun off v => ?_, fun addr v h => ?_⟩
  · simp [memRead, memWrite, offsetOf_base_add]
  · simp [memRead, memWrite, offsetOf_outside h]

end Sys2Proof.Machine
end

section
/-! SUPPORT. The statements of 30_encoding.md: the legal words (R98), the illegal ones (R96), and INIT of a reserved
algorithm (R97). -/

namespace Sys2Proof.Machine

/-! ### Words by their fields -/

/-- The word of given fields, the reserved bits 0: `000000000000000000 TTTTTT 0 AAA OOOO` (30_encoding.md R91). -/
def wordOfFields (op : BitVec 4) (alg : BitVec 3) (tail : BitVec 6) : Word := 0#18 ++ tail ++ 0#1 ++ alg ++ op

/-- A word whose reserved bits are 0 is the word of its fields (R91). -/
theorem eq_wordOfFields {w : Word} {op : BitVec 4} {alg : BitVec 3} {tail : BitVec 6} (hHigh : reservedHigh w = 0)
    (h7 : reservedBit7 w = 0) (hop : opField w = op) (halg : algField w = alg) (htail : tailField w = tail) :
    w = wordOfFields op alg tail := by
  subst hop halg htail
  have fields_append : w = reservedHigh w ++ tailField w ++ reservedBit7 w ++ algField w ++ opField w := by
    rw [reservedHigh, tailField, reservedBit7, algField, opField]
    repeat rw [BitVec.extractLsb'_append_extractLsb'_eq_extractLsb' (by rfl)]
    exact BitVec.extractLsb'_eq_self.symm
  rwa [hHigh, h7] at fields_append

/-- The word of INIT(a), for every code (R92, R93). -/
theorem encode_initOfCode (alg : BitVec 3) : encode (initOfCode alg) = wordOfFields 1 alg 0 := by
  revert alg
  decide

/-- The word of FINAL n, for every tail (R92, R94). -/
theorem encode_final (tail : BitVec 6) : encode (.final tail) = wordOfFields 3 0 tail := by
  revert tail
  decide

/-! ### Decoding -/

/-- Decoding succeeds at a check of unused fields exactly if the check holds. -/
theorem onlyIf_eq_ok_iff {p : Prop} [Decidable p] {i j : Instr} : onlyIf p i = .ok j ↔ p ∧ i = j := by
  by_cases hp : p <;> simp [onlyIf, hp]

/-- Decoding fails at a check of unused fields exactly if the check fails. -/
theorem onlyIf_eq_error_iff {p : Prop} [Decidable p] {i : Instr} : (∃ e, onlyIf p i = .error e) ↔ ¬p := by
  by_cases hp : p <;> simp [onlyIf, hp]

/-- Decoding the word of a command gives the command back (R95, R98). -/
theorem decode_encode (i : Instr) : decode (encode i) = .ok i := by
  cases i with
  | final tail => revert tail; decide
  | _ => rfl

/-- A word that decodes to a command using neither ALG nor TAIL is that command's word (R95). -/
theorem eq_encode_of_noOperand {w : Word} {op : BitVec 4} {i j : Instr} (hHigh : reservedHigh w = 0)
    (h7 : reservedBit7 w = 0) (hop : opField w = op) (hj : encode j = wordOfFields op 0 0)
    (h : onlyIf (algField w = 0 ∧ tailField w = 0) j = .ok i) : w = encode i := by
  obtain ⟨⟨halg, htail⟩, rfl⟩ := onlyIf_eq_ok_iff.mp h
  rw [hj]
  exact eq_wordOfFields hHigh h7 hop halg htail

/-- A word that decodes to a command is that command's word: the checks of `decode` leave free only the
fields the command uses, ALG of INIT and TAIL of FINAL (R95). -/
theorem eq_encode_of_decode {w : Word} {i : Instr} (h : decode w = .ok i) : w = encode i := by
  unfold decode at h
  split at h
  case isTrue => cases h
  case isFalse hres =>
    obtain ⟨hHigh, h7⟩ : reservedHigh w = 0 ∧ reservedBit7 w = 0 := by simpa using hres
    repeat' split at h
    next hop => exact eq_encode_of_noOperand hHigh h7 hop rfl h
    next hop =>
      obtain ⟨htail, rfl⟩ := onlyIf_eq_ok_iff.mp h
      rw [encode_initOfCode]
      exact eq_wordOfFields hHigh h7 hop rfl htail
    next hop => exact eq_encode_of_noOperand hHigh h7 hop rfl h
    next hop =>
      obtain ⟨halg, rfl⟩ := onlyIf_eq_ok_iff.mp h
      rw [encode_final]
      exact eq_wordOfFields hHigh h7 hop halg rfl
    next hop => exact eq_encode_of_noOperand hHigh h7 hop rfl h
    next hop => exact eq_encode_of_noOperand hHigh h7 hop rfl h
    next => cases h

/-- Decoding fails exactly for the reasons R96 lists: each OP of 0-5 leaves the checks of the fields it does not
use, and no other OP has a command. -/
theorem decode_eq_error_iff (w : Word) : (∃ e, decode w = .error e) ↔
    reservedHigh w ≠ 0 ∨ reservedBit7 w ≠ 0 ∨ 6 ≤ (opField w).toNat ∨
      (algField w ≠ 0 ∧ opField w ≠ 1) ∨ (tailField w ≠ 0 ∧ opField w ≠ 3) := by
  unfold decode
  split
  case isTrue hres => exact iff_of_true ⟨_, rfl⟩ (by tauto)
  case isFalse hres =>
    obtain ⟨hHigh, h7⟩ : reservedHigh w = 0 ∧ reservedBit7 w = 0 := by simpa using hres
    simp only [hHigh, h7, ne_eq, not_true_eq_false, false_or]
    repeat' split
    next hop => rw [onlyIf_eq_error_iff, not_and_or, hop]; simp
    next hop => rw [onlyIf_eq_error_iff, hop]; simp
    next hop => rw [onlyIf_eq_error_iff, not_and_or, hop]; simp
    next hop => rw [onlyIf_eq_error_iff, hop]; simp
    next hop => rw [onlyIf_eq_error_iff, not_and_or, hop]; simp
    next hop => rw [onlyIf_eq_error_iff, not_and_or, hop]; simp
    next => exact iff_of_true ⟨_, rfl⟩ (.inl (by bv_omega))

/-- Executing an illegal word raises ILLEGAL_CMD, and nothing else (45_commands.md R273). -/
theorem executeWord_of_illegal {w : Word} {e : IllegalWord} (s : State) (h : decode w = .error e) :
    executeWord w s = .next (raiseError .illegalCmd s) := by
  rw [executeWord, h]

/-- Settles O2: `decode` and `encode` are inverse to each other, and the words of R98 are those of `encode`. -/
theorem legalWordsAreTheListedOnes : Obligations.LegalWordsAreTheListedOnes := by
  intro w i
  have hiff : decode w = .ok i ↔ w = encode i := ⟨eq_encode_of_decode, fun h => h ▸ decode_encode i⟩
  cases i <;> exact hiff

/-- Settles O3: by the checks of `decode`, and the raise an illegal word leads to. -/
theorem illegalWordsRaiseIllegalCmd : Obligations.IllegalWordsRaiseIllegalCmd :=
  fun w => ⟨decode_eq_error_iff w, fun s _ h => executeWord_of_illegal s h⟩

/-! ### INIT of a reserved algorithm -/

/-- With ERR = 0, INIT of a reserved code records UNIMPL_ALG and leaves everything else (R97, 45_commands.md R275). -/
theorem exec_initOfCode_reserved {s : State} (he : s.err = false) {code : BitVec 3} (hc : 4 ≤ code.toNat) :
    exec (initOfCode code) s = .next { s with err := true, errCode := 2 } := by
  rw [exec_initOfCode, throughErrorGate_of_ok _ he, doInit, if_pos hc, raiseError_of_ok _ he]
  rfl

/-- Settles O15: the four words are those of INIT of the codes 4-7, which are reserved. -/
theorem initSha2RaisesUnimplAlg : Obligations.InitSha2RaisesUnimplAlg := by
  refine ⟨⟨decode_encode .initSha224, decode_encode .initSha256, decode_encode .initSha384,
    decode_encode .initSha512⟩, fun s i he hi => ?_⟩
  have reserved : ∃ code : BitVec 3, 4 ≤ code.toNat ∧ initOfCode code = i := by
    revert i
    decide
  obtain ⟨code, hc, rfl⟩ := reserved
  exact exec_initOfCode_reserved he hc

end Sys2Proof.Machine
end

section
/-! SUPPORT. The statements of 40_codec_padding.md: the codec (R124), the padding (R134, R135) and its length field
(R132). -/

namespace Sys2Proof.Machine

/-! ### A word and its bytes -/

/-- `BE32` is concatenation, the first byte highest (40_codec_padding.md R121). -/
theorem be32_eq_append (b0 b1 b2 b3 : Byte) : be32 b0 b1 b2 b3 = b0 ++ b1 ++ b2 ++ b3 := by
  have h := BitVec.setWidth_append_append_append_eq_shiftLeft_setWidth_or (w'''' := 32) (b := b0) (b' := b1)
    (b'' := b2) (b''' := b3)
  rw [BitVec.setWidth_eq] at h
  rw [h, be32]

/-- `LE32` is `BE32` of the bytes in reverse (R120, R121). -/
theorem le32_eq_be32_reverse (b0 b1 b2 b3 : Byte) : le32 b0 b1 b2 b3 = be32 b3 b2 b1 b0 := by
  rw [le32, be32, BitVec.or_comm (b0.setWidth 32), BitVec.or_comm _ (b2.setWidth 32 <<< 16),
    BitVec.or_comm _ (b3.setWidth 32 <<< 24), ← BitVec.or_assoc, ← BitVec.or_assoc]

/-- Byte j of a word, from its bytes, the highest first. -/
theorem byteOf_be32 (b0 b1 b2 b3 : Byte) {j : Nat} (hj : j < 4) :
    byteOf (be32 b0 b1 b2 b3) j = #v[b3, b2, b1, b0][j] := by
  rw [be32_eq_append, byteOf]
  match j, hj with
  | 0, _ => exact BitVec.extractLsb'_append_eq_right
  | 1, _ =>
    rw [BitVec.extractLsb'_append_eq_of_le (by decide)]
    exact BitVec.extractLsb'_append_eq_right
  | 2, _ =>
    rw [BitVec.extractLsb'_append_eq_of_le (by decide), BitVec.extractLsb'_append_eq_of_le (by decide)]
    exact BitVec.extractLsb'_append_eq_right
  | 3, _ =>
    rw [BitVec.extractLsb'_append_eq_of_le (by decide), BitVec.extractLsb'_append_eq_of_le (by decide)]
    exact BitVec.extractLsb'_append_eq_left

/-- The bytes of a word, the highest first, make the word. -/
theorem be32_byteOf (w : Word) : be32 (byteOf w 3) (byteOf w 2) (byteOf w 1) (byteOf w 0) = w := by
  rw [be32_eq_append, byteOf, byteOf, byteOf, byteOf]
  repeat rw [BitVec.extractLsb'_append_extractLsb'_eq_extractLsb' (by rfl)]
  exact BitVec.extractLsb'_eq_self

/-- Serialising a word read in the same byte order gives its bytes back (R122, R123). -/
theorem serialByte_wordOf (e : ByteOrder) (b0 b1 b2 b3 : Byte) {j : Nat} (hj : j < 4) :
    serialByte e (wordOf e b0 b1 b2 b3) j = #v[b0, b1, b2, b3][j] := by
  cases e with
  | littleEndian => rw [wordOf, le32_eq_be32_reverse, serialByte, byteOf_be32 _ _ _ _ hj]
  | bigEndian =>
    rw [wordOf, serialByte, byteOf_be32 _ _ _ _ (by omega)]
    match j, hj with
    | 0, _ | 1, _ | 2, _ | 3, _ => rfl

/-- A word is what its serialised bytes read as, in the same byte order (R122, R123). -/
theorem wordOf_serialByte (e : ByteOrder) (w : Word) :
    wordOf e (serialByte e w 0) (serialByte e w 1) (serialByte e w 2) (serialByte e w 3) = w := by
  cases e with
  | littleEndian => exact (le32_eq_be32_reverse _ _ _ _).trans (be32_byteOf w)
  | bigEndian => exact be32_byteOf w

/-! ### The codec -/

theorem getElem_bytesToWords {n : Nat} (e : ByteOrder) (B : Vector Byte (4 * n)) (k : Nat) (hk : k < n) :
    (bytesToWords n e B)[k] = wordOf e B[4 * k] B[4 * k + 1] B[4 * k + 2] B[4 * k + 3] := by
  simp [bytesToWords]

theorem getElem_wordsToBytes {n : Nat} (e : ByteOrder) (W : Vector Word n) (i : Nat) (hi : i < 4 * n) :
    (wordsToBytes n e W)[i] = serialByte e W[i / 4] (i % 4) := by
  simp [wordsToBytes]

/-- Byte j of word k stands at `4·k + j` (R123). -/
theorem getElem_wordsToBytes_mul_add {n : Nat} (e : ByteOrder) (W : Vector Word n) {k j : Nat}
    (h : 4 * k + j < 4 * n) (hj : j < 4) : (wordsToBytes n e W)[4 * k + j] = serialByte e W[k] j := by
  have hk : (4 * k + j) / 4 = k := by omega
  have hr : (4 * k + j) % 4 = j := by omega
  simp only [getElem_wordsToBytes, hk, hr]

theorem wordsToBytes_bytesToWords (n : Nat) (e : ByteOrder) (B : Vector Byte (4 * n)) :
    wordsToBytes n e (bytesToWords n e B) = B := by
  apply Vector.ext
  intro i hi
  obtain ⟨k, j, hj, rfl⟩ : ∃ k j, j < 4 ∧ i = 4 * k + j := ⟨i / 4, i % 4, by omega, by omega⟩
  rw [getElem_wordsToBytes_mul_add e _ hi hj, getElem_bytesToWords, serialByte_wordOf e _ _ _ _ hj]
  match j, hj with
  | 0, _ | 1, _ | 2, _ | 3, _ => rfl

theorem bytesToWords_wordsToBytes (n : Nat) (e : ByteOrder) (W : Vector Word n) :
    bytesToWords n e (wordsToBytes n e W) = W := by
  apply Vector.ext
  intro k hk
  have byte (j : Nat) (hj : j < 4) : (wordsToBytes n e W)[4 * k + j] = serialByte e W[k] j :=
    getElem_wordsToBytes_mul_add e W (by omega) hj
  calc (bytesToWords n e (wordsToBytes n e W))[k]
      = wordOf e (serialByte e W[k] 0) (serialByte e W[k] 1) (serialByte e W[k] 2) (serialByte e W[k] 3) := by
        rw [getElem_bytesToWords, ← byte 0 (by decide), ← byte 1 (by decide), ← byte 2 (by decide),
          ← byte 3 (by decide)]
        rfl
    _ = W[k] := wordOf_serialByte e W[k]

/-- Settles O41: word by word, from the round trips of one word. -/
theorem codecRoundTrip : Obligations.CodecRoundTrip :=
  fun n e => ⟨wordsToBytes_bytesToWords n e, bytesToWords_wordsToBytes n e⟩

/-! ### The padding -/

/-- The padding of a whole message is that of a tail that is the whole message (R130, R133). -/
theorem padMd_eq_padTailMd (e : ByteOrder) (m : List Byte) :
    padMd e m = padTailMd e m (BitVec.ofNat 64 m.length) := rfl

/-- The number of zero bytes depends on the length mod 64 only (R130). -/
theorem zeroBytes_add_of_mod {k : Nat} (hk : k % 64 = 0) (n : Nat) : zeroBytes (k + n) = zeroBytes n := by
  have h : (k + n) % 64 = n % 64 := by omega
  rw [zeroBytes, zeroBytes, h]

/-- Whole blocks before a tail stand before its padding (R134). -/
theorem padTailMd_append (e : ByteOrder) {F : List Byte} (hF : F.length % 64 = 0) (T : List Byte) (len : Length) :
    padTailMd e (F ++ T) len = F ++ padTailMd e T len := by
  simp [padTailMd, zeroBytes_add_of_mod hF]

/-- Whole blocks before a message stand before its MD2 padding (R128). -/
theorem padMd2_append {F : List Byte} (hF : F.length % 16 = 0) (T : List Byte) : padMd2 (F ++ T) = F ++ padMd2 T := by
  have h : (F ++ T).length % 16 = T.length % 16 := by
    rw [List.length_append]
    omega
  simp only [padMd2, h, List.append_assoc]

/-- A message shorter than a block is its own tail (R128, R133). -/
theorem padMd2_of_short {T : List Byte} (hT : T.length < 16) : padMd2 T = padTailMd2 T := by
  simp only [padMd2, padTailMd2, Nat.mod_eq_of_lt hT]

/-- Settles O42: whole blocks pass through the padding, and the rest is padded as the tail. -/
theorem tailPaddingCompletesMessage : Obligations.TailPaddingCompletesMessage := by
  refine fun F T => ⟨fun e hF _ => ?_, fun hF hT => ?_⟩
  · rw [padMd_eq_padTailMd, padTailMd_append e hF]
  · rw [padMd2_append hF, padMd2_of_short hT]

/-- The zero bytes fill up to 8 bytes before the end of a block (R130). -/
theorem zeroBytes_spec (n : Nat) : zeroBytes n < 64 ∧ (n + 1 + zeroBytes n + 8) % 64 = 0 := by
  rw [zeroBytes]
  omega

theorem padMd2_length (m : List Byte) : (padMd2 m).length = m.length + (16 - m.length % 16) := by
  simp [padMd2]

/-- Settles O43: by the lengths of the paddings. -/
theorem paddingIsAligned : Obligations.PaddingIsAligned := by
  refine ⟨fun m e => ?_, fun m => ?_, fun T e n hT => ?_, fun T hT => ?_⟩
  · rw [padMd_length]
    exact (zeroBytes_spec _).2
  · rw [padMd2_length]
    omega
  · obtain ⟨hlt, hmod⟩ := zeroBytes_spec T.length
    rw [padTailMd_length]
    omega
  · rw [← padMd2_of_short hT, padMd2_length]
    omega

/-! ### The length field -/

/-- Byte j of the k-th word of a bit vector is byte `4·k + j` of it (R10). -/
theorem byteOf_extractLsb' (bits : Length) (k : Nat) {j : Nat} (hj : j < 4) :
    byteOf (bits.extractLsb' (32 * k) 32) j = bits.extractLsb' (8 * (4 * k + j)) 8 := by
  apply BitVec.eq_of_getElem_eq
  intro i hi
  have hin : 8 * j + i < 32 := by omega
  have hat : 32 * k + (8 * j + i) = 8 * (4 * k + j) + i := by omega
  simp [byteOf, hin, hat]

/-- The length field, least significant byte first, is the bytes of `bits` in order (R130). -/
theorem lengthField_littleEndian (len : Length) :
    lengthField .littleEndian len = (List.range 8).map fun i => (8 * len).extractLsb' (8 * i) 8 := by
  apply List.ext_getElem
  · simp
  · intro i hi _
    have hword : ∀ k, (hk : k < 2) → #v[(8 * len).extractLsb' 0 32, (8 * len).extractLsb' 32 32][k] =
        (8 * len).extractLsb' (32 * k) 32
      | 0, _ | 1, _ => rfl
    have hbyte : 4 * (i / 4) + i % 4 = i := Nat.div_add_mod i 4
    simp only [lengthField, Vector.getElem_toList, getElem_wordsToBytes, hword, serialByte, List.getElem_map,
      List.getElem_range]
    rw [byteOf_extractLsb' _ _ (by omega), hbyte]

/-- Most significant byte first is the reverse of least significant byte first (R130). -/
theorem lengthField_bigEndian (len : Length) :
    lengthField .bigEndian len = (lengthField .littleEndian len).reverse := by
  rfl

/-- Read least significant byte first, the length field is `bits` (R132). -/
theorem lengthField_value (len : Length) :
    (lengthField .littleEndian len).foldr (fun b v => b.toNat + 256 * v) 0 = (8 * len).toNat := by
  rw [lengthField_littleEndian]
  generalize 8 * len = bits
  have hbits : bits.toNat < 2 ^ 64 := bits.isLt
  simp only [show List.range 8 = [0, 1, 2, 3, 4, 5, 6, 7] from rfl, List.map_cons, List.map_nil, List.foldr_cons,
    List.foldr_nil, BitVec.extractLsb'_toNat, Nat.shiftRight_eq_div_pow]
  omega

/-- Only L mod 2^61 affects `bits` (R132). -/
theorem bits_eq_of_mod {L M : Length} (h : L.toNat % 2 ^ 61 = M.toNat % 2 ^ 61) : 8 * L = 8 * M := by
  bv_omega

/-- Settles O45: the bytes of the field are those of `bits`, in order or in reverse. -/
theorem lengthFieldWraps : Obligations.LengthFieldWraps := by
  refine ⟨fun n => ?_, fun e L M h => ?_⟩
  · have hbits : (8 * BitVec.ofNat 64 n).toNat = 8 * n % 2 ^ 64 := by
      simp
    refine ⟨lengthField_length _ _, lengthField_length _ _, ?_, ?_⟩
    · rw [lengthField_value, hbits]
    · rw [lengthField_bigEndian, List.foldl_reverse, ← hbits, ← lengthField_value]
      simp only [Nat.add_comm]
  · simp only [lengthField, bits_eq_of_mod h]

end Sys2Proof.Machine
end

section
/-! SUPPORT. The statements of 41_md2.md: the S-box (R152), INIT (R153), BLOCK and FINAL (R158, R159), and the two
orders of the checksum (R160). -/

namespace Sys2Proof.Machine

/-! ### Commands that complete -/

/-- With ERR = 0, INIT of an implemented code starts a message (45_commands.md R275). -/
theorem exec_initOfCode_implemented {s : State} (he : s.err = false) {code : BitVec 3} (hc : code.toNat < 4) :
    exec (initOfCode code) s = .next (startMessage code (initialAlgo code s.algo) s) := by
  rw [exec_initOfCode, throughErrorGate_of_ok _ he, doInit, if_neg (by omega)]

/-- BLOCK writes the algorithm state and LEN, and leaves free values in the micro-state (R276, 10_state.md R43). -/
theorem afterBlock_eq (s : State) (h : AlgoState) :
    afterBlock s h = { s with
      algo := h, len := s.len + blockLength s.alg, micro := unspecifiedMicro s.draws, draws := s.draws + microDraws } :=
  rfl

/-- FINAL writes the algorithm state, LEN, DIG and PHASE, and leaves free values in the micro-state (R277, R43). -/
theorem afterFinal_eq (s : State) (len : Length) (h : AlgoState) :
    afterFinal s len h = { s with
      algo := h, len := len, dig := digestOf s.alg h, phase := phaseDone, micro := unspecifiedMicro s.draws
      draws := s.draws + microDraws } :=
  rfl

/-- With ERR = 0, BLOCK in ABSORB folds BLK (45_commands.md R276). -/
theorem exec_block_absorb {s : State} (he : s.err = false) (hp : s.phase = phaseAbsorb) (ha : s.alg.toNat ≤ 3) :
    exec .block s = .next (afterBlock s (blockFold s.alg s.blk s.algo)) := by
  rw [exec, execBlock, throughErrorGate_of_ok _ he, inAbsorb_absorb _ hp, foldBlock_eq ha]

/-- With ERR = 0, FINAL n in ABSORB folds the padded tail, unless it is too long for MD2 (45_commands.md R277). -/
theorem exec_final_absorb {s : State} (he : s.err = false) (hp : s.phase = phaseAbsorb) (ha : s.alg.toNat ≤ 3)
    {tail : BitVec 6} (hn : ¬(s.alg = algMd2 ∧ 16 ≤ tailCount tail)) :
    exec (.final tail) s = .next (afterFinal s (s.len + tailLength tail)
      (tailFold s.alg (tailBytes tail s) (s.len + tailLength tail) s.algo)) := by
  rw [exec, execFinal, throughErrorGate_of_ok _ he, inAbsorb_absorb _ hp, finishMessage_eq tail ha hn]

/-! ### MD2 commands -/

/-- Settles O11: MD2 has the implemented code 0, and its initial state is zeros. -/
theorem initMd2Starts : Obligations.InitMd2Starts :=
  fun _ he => exec_initOfCode_implemented he (code := 0) (by decide)

/-- Settles O21: BLOCK and FINAL complete, and what they fold is chosen by ALG = MD2. -/
theorem md2BlockAndFinal : Obligations.Md2BlockAndFinal := by
  intro s he hp ha
  have hcode : s.alg.toNat ≤ 3 := by simp [ha]
  refine ⟨⟨unspecifiedMicro s.draws, s.draws + microDraws, ?_⟩,
    fun tail ht => ⟨unspecifiedMicro s.draws, s.draws + microDraws, ?_⟩⟩
  · rw [exec_block_absorb he hp hcode, afterBlock_eq, ha]
    rfl
  · have hn : ¬(s.alg = algMd2 ∧ 16 ≤ tailCount tail) := fun h => absurd ht (Nat.not_lt.mpr h.2)
    rw [exec_final_absorb he hp hcode hn, afterFinal_eq, ha]
    rfl

/-! ### The checksum as blocks arrive -/

theorem md2Init_x (h : AlgoState) : (md2Init h).x = Vector.replicate 48 0 := rfl

/-- The compression of a block does not read C and L (41_md2.md R158), so absorbing blocks compresses them into X. -/
theorem foldl_md2Absorb_x (Bs : List (Vector Byte 16)) (h : AlgoState) :
    (Bs.foldl md2Absorb h).x = Bs.foldl md2Compress h.x :=
  (List.foldl_hom AlgoState.x fun _ _ => rfl).symm

/-- The checksum update does not read X (R158), so absorbing blocks runs the checksum over them. -/
theorem foldl_md2Absorb_checksum (Bs : List (Vector Byte 16)) (h : AlgoState) :
    ((Bs.foldl md2Absorb h).c, (Bs.foldl md2Absorb h).l) =
      Bs.foldl (fun p B => md2ChecksumUpdate p.1 p.2 B) (h.c, h.l) :=
  (List.foldl_hom (fun k : AlgoState => (k.c, k.l)) fun _ _ => rfl).symm

/-- After the blocks of a padded message, C is the checksum of that message (R160). -/
theorem foldl_md2Absorb_c (P : List Byte) :
    ((blocksOf 16 P).foldl md2Absorb (md2Init AlgoState.zero)).c = md2Checksum P :=
  congrArg Prod.fst (foldl_md2Absorb_checksum _ _)

/-- Settles O48: absorbing splits into the compression of the blocks and their checksum. -/
theorem incrementalChecksumEqualsTwoPass : Obligations.IncrementalChecksumEqualsTwoPass := by
  intro m
  simp only [md2, md2TwoPass, md2Digest, md2Init_x, foldl_md2Absorb_x, foldl_md2Absorb_c, List.foldl_append,
    List.foldl_cons, List.foldl_nil]

/-! ### The S-box -/

/-- The inverse of the S-box, in the layout of `sBoxRows`: entry v is where v stands in the table of R151. -/
def sBoxInverseRows : Vector (Vector Byte 16) 16 :=
  #v[
    #v[221, 7, 143, 95, 126, 18, 14, 70, 203, 183, 239, 76, 204, 178, 227, 159],
    #v[74, 253, 47, 15, 255, 68, 39, 45, 43, 97, 247, 144, 152, 222, 32, 246],
    #v[135, 79, 77, 163, 200, 146, 175, 87, 181, 0, 107, 26, 176, 141, 1, 61],
    #v[98, 240, 86, 251, 156, 88, 9, 194, 114, 223, 167, 220, 35, 8, 89, 71],
    #v[157, 188, 41, 2, 241, 128, 153, 161, 100, 55, 207, 238, 29, 190, 49, 112],
    #v[242, 165, 191, 177, 10, 160, 109, 34, 229, 131, 84, 137, 169, 82, 105, 78],
    #v[145, 154, 16, 213, 132, 139, 228, 40, 65, 155, 192, 122, 196, 215, 179, 42],
    #v[130, 133, 234, 22, 125, 237, 120, 233, 208, 66, 63, 202, 6, 118, 158, 81],
    #v[80, 189, 30, 254, 182, 180, 136, 134, 209, 75, 44, 211, 23, 250, 59, 244],
    #v[85, 67, 106, 25, 72, 210, 116, 94, 24, 249, 83, 33, 124, 129, 53, 252],
    #v[56, 11, 4, 162, 117, 101, 232, 17, 142, 64, 110, 198, 108, 147, 148, 166],
    #v[149, 206, 69, 99, 243, 102, 119, 226, 113, 150, 172, 60, 28, 205, 48, 92],
    #v[20, 197, 73, 168, 50, 173, 111, 21, 195, 3, 31, 217, 90, 186, 171, 138],
    #v[230, 103, 115, 184, 37, 218, 51, 104, 5, 27, 52, 248, 193, 164, 54, 185],
    #v[38, 201, 123, 212, 231, 46, 140, 91, 214, 216, 174, 236, 12, 245, 62, 225],
    #v[13, 127, 224, 19, 187, 58, 151, 93, 235, 170, 199, 57, 121, 36, 219, 96]]

def sBoxInverse (v : Byte) : Byte := sBoxInverseRows[(v.extractLsb' 4 4).toNat][(v.extractLsb' 0 4).toNat]

/-- The index of an entry is found back from its value, so the 256 entries are distinct (41_md2.md R152). -/
theorem sBoxInverse_leftInverse : Function.LeftInverse sBoxInverse sBox := by
  unfold Function.LeftInverse
  decide +kernel

/-- Settles O46: an injective map of the finite set of bytes into itself is bijective. -/
theorem sBoxIsPermutation : Obligations.SBoxIsPermutation :=
  Finite.injective_iff_bijective.mp sBoxInverse_leftInverse.injective

end Sys2Proof.Machine
end

section
/-! SUPPORT. The statements of 42_md4.md: INIT (R181), BLOCK and FINAL (R190), and the steps without register
movement (R189). The lemmas that do not name MD4 are for MD5 (43_md5.md R219, R220) and, for BLOCK and FINAL, SHA-1
(44_sha1.md R247) as well. -/

namespace Sys2Proof.Machine

/-! ### INIT -/

/-- Settles O12: MD4 has the implemented code 1, and its initial state is IV_MD with H4 = 0. -/
theorem initMd4Starts : Obligations.InitMd4Starts :=
  fun _ he => exec_initOfCode_implemented he (code := 1) (by decide)

/-! ### BLOCK and FINAL of an algorithm with 64-byte blocks -/

/-- BLOCK in ABSORB under an algorithm with 64-byte blocks (45_commands.md R276). -/
theorem exec_block_of_alg {s : State} {code : BitVec 3} (he : s.err = false) (hp : s.phase = phaseAbsorb)
    (ha : s.alg = code) (hc : code.toNat ≤ 3) (hn : code ≠ algMd2) :
    ∃ μ n, exec .block s = .next { s with
      algo := blockFold code s.blk s.algo, len := s.len + 64, micro := μ, draws := n } := by
  subst ha
  have hlen : blockLength s.alg = 64 := if_neg hn
  refine ⟨unspecifiedMicro s.draws, s.draws + microDraws, ?_⟩
  rw [exec_block_absorb he hp hc, afterBlock_eq, hlen]

/-- FINAL n in ABSORB under an algorithm with 64-byte blocks: every n is legal, since only MD2 has a tail that is
too long (R277). -/
theorem exec_final_of_alg {s : State} {code : BitVec 3} (he : s.err = false) (hp : s.phase = phaseAbsorb)
    (ha : s.alg = code) (hc : code.toNat ≤ 3) (hn : code ≠ algMd2) (tail : BitVec 6) :
    let len := s.len + tailLength tail
    let h := tailFold code (tailBytes tail s) len s.algo
    ∃ μ n, exec (.final tail) s = .next { s with
      algo := h, len := len, dig := digestOf code h, phase := phaseDone, micro := μ, draws := n } := by
  subst ha
  refine ⟨unspecifiedMicro s.draws, s.draws + microDraws, ?_⟩
  rw [exec_final_absorb he hp hc fun h => hn h.1, afterFinal_eq]

/-! ### BLOCK and FINAL of MD4 -/

theorem blockFold_md4 (blk : Vector Byte 64) (h : AlgoState) : blockFold algMd4 blk h = md4Compress h blk := rfl

theorem tailFold_md4 (tail : List Byte) (len : Length) (h : AlgoState) :
    tailFold algMd4 tail len h = (blocksOf 64 (padTailMd .littleEndian tail len)).foldl md4Compress h := rfl

theorem digestOf_md4 (h : AlgoState) : digestOf algMd4 h = digestLe h := rfl

/-- Settles O22: under ALG = MD4 the folds are those of `md4_compress`, and the digest is the little-endian one. -/
theorem md4BlockAndFinal : Obligations.Md4BlockAndFinal := by
  intro s he hp ha
  have hblock := exec_block_of_alg (code := algMd4) he hp ha (by decide) (by decide)
  have hfinal := exec_final_of_alg (code := algMd4) he hp ha (by decide) (by decide)
  simp only [blockFold_md4, tailFold_md4, digestOf_md4] at hblock hfinal
  exact ⟨hblock, hfinal⟩

/-! ### Steps without register movement -/

/-- The register movement of one step, (a, b, c, d) to (d, a, b, c) (R187). -/
def Quad.rotate (q : Quad) : Quad := ⟨q.d, q.a, q.b, q.c⟩

/-- The value a step computes from its four registers, as `md4Value M i` is. -/
abbrev StepValue := Word → Word → Word → Word → Word

/-- A step that moves the registers, on the value `v` computes: new (a, b, c, d) = (d, t, b, c) (R187). -/
def movingStep (v : StepValue) (q : Quad) : Quad := ⟨q.d, v q.a q.b q.c q.d, q.b, q.c⟩

/-- Step k without the movement: it updates A, D, C or B, as k mod 4 says (R189). -/
def inPlaceStep (v : StepValue) (k : Nat) (q : Quad) : Quad :=
  if k % 4 = 0 then { q with a := v q.a q.b q.c q.d }
  else if k % 4 = 1 then { q with d := v q.d q.a q.b q.c }
  else if k % 4 = 2 then { q with c := v q.c q.d q.a q.b }
  else { q with b := v q.b q.c q.d q.a }

theorem md4Step_eq_movingStep (M : Vector Word 16) : md4Step M = fun q i => movingStep (md4Value M i) q := rfl

theorem md4StepInPlace_eq_inPlaceStep (M : Vector Word 16) :
    md4StepInPlace M = fun q i => inPlaceStep (md4Value M i) i.val q := rfl

/-- Four movements bring the registers back. -/
theorem rotate_iterate_mod_four (k : Nat) (q : Quad) : Quad.rotate^[k % 4] q = Quad.rotate^[k] q :=
  have hfour : Function.IsPeriodicPt Quad.rotate 4 q := rfl
  hfour.iterate_mod_apply k

/-- If the moving registers are the fixed ones moved k times, a moving step leaves them the fixed ones after step k
in place, moved once more. -/
theorem movingStep_iterate_rotate (v : StepValue) (k : Nat) (q : Quad) :
    movingStep v (Quad.rotate^[k] q) = Quad.rotate^[k + 1] (inPlaceStep v k q) := by
  rw [Function.iterate_succ_apply', ← rotate_iterate_mod_four k q, ← rotate_iterate_mod_four k (inPlaceStep v k q),
    inPlaceStep]
  obtain h | h | h | h : k % 4 = 0 ∨ k % 4 = 1 ∨ k % 4 = 2 ∨ k % 4 = 3 := by omega
  all_goals
    rw [h]
    rfl

/-- After n steps, the moving registers are the fixed ones moved n times. -/
theorem foldl_movingStep_eq_iterate_rotate {n : Nat} (v : Fin n → StepValue) (q : Quad) :
    (List.finRange n).foldl (fun p i => movingStep (v i) p) q =
      Quad.rotate^[n] ((List.finRange n).foldl (fun p i => inPlaceStep (v i) i.val p) q) := by
  induction n with
  | zero => rfl
  | succ n ih =>
    have hprefix := ih fun i => v i.castSucc
    simp only [List.finRange_succ_last, List.foldl_append, List.foldl_map, List.foldl_cons, List.foldl_nil,
      Fin.val_castSucc, Fin.val_last]
    rw [hprefix, movingStep_iterate_rotate]

/-- Whole groups of four steps give the same registers with and without movement. -/
theorem foldl_inPlaceStep_eq_movingStep {n : Nat} (hn : n % 4 = 0) (v : Fin n → StepValue) (q : Quad) :
    (List.finRange n).foldl (fun p i => inPlaceStep (v i) i.val p) q =
      (List.finRange n).foldl (fun p i => movingStep (v i) p) q := by
  rw [foldl_movingStep_eq_iterate_rotate, ← rotate_iterate_mod_four, hn]
  rfl

/-- Settles O49: 48 steps are twelve groups of four. -/
theorem md4InPlaceForm : Obligations.Md4InPlaceForm := by
  intro M q
  rw [md4Steps, md4Step_eq_movingStep, md4StepInPlace_eq_inPlaceStep]
  exact foldl_inPlaceStep_eq_movingStep rfl (md4Value M) q

end Sys2Proof.Machine
end

section
/-! SUPPORT. The statements of 43_md5.md: INIT (R210), BLOCK and FINAL (R220), and the steps without register
movement (R219). What MD5 shares with MD4 stands with the statements of 42_md4.md. -/

namespace Sys2Proof.Machine

/-! ### INIT -/

/-- Settles O13: MD5 has the implemented code 2, and its initial state is IV_MD with H4 = 0. -/
theorem initMd5Starts : Obligations.InitMd5Starts :=
  fun _ he => exec_initOfCode_implemented he (code := 2) (by decide)

/-! ### BLOCK and FINAL of MD5 -/

theorem blockFold_md5 (blk : Vector Byte 64) (h : AlgoState) : blockFold algMd5 blk h = md5Compress h blk := rfl

theorem tailFold_md5 (tail : List Byte) (len : Length) (h : AlgoState) :
    tailFold algMd5 tail len h = (blocksOf 64 (padTailMd .littleEndian tail len)).foldl md5Compress h := rfl

theorem digestOf_md5 (h : AlgoState) : digestOf algMd5 h = digestLe h := rfl

/-- Settles O23: under ALG = MD5 the folds are those of `md5_compress`, and the digest is the little-endian one. -/
theorem md5BlockAndFinal : Obligations.Md5BlockAndFinal := by
  intro s he hp ha
  have hblock := exec_block_of_alg (code := algMd5) he hp ha (by decide) (by decide)
  have hfinal := exec_final_of_alg (code := algMd5) he hp ha (by decide) (by decide)
  simp only [blockFold_md5, tailFold_md5, digestOf_md5] at hblock hfinal
  exact ⟨hblock, hfinal⟩

/-! ### Steps without register movement -/

theorem md5Step_eq_movingStep (M : Vector Word 16) : md5Step M = fun q i => movingStep (md5Value M i) q := rfl

theorem md5StepInPlace_eq_inPlaceStep (M : Vector Word 16) :
    md5StepInPlace M = fun q i => inPlaceStep (md5Value M i) i.val q := rfl

/-- Settles O50: 64 steps are sixteen groups of four. -/
theorem md5InPlaceForm : Obligations.Md5InPlaceForm := by
  intro M q
  rw [md5Steps, md5Step_eq_movingStep, md5StepInPlace_eq_inPlaceStep]
  exact foldl_inPlaceStep_eq_movingStep rfl (md5Value M) q

end Sys2Proof.Machine
end

section
/-! SUPPORT. The statements of 44_sha1.md: INIT (R241), BLOCK and FINAL (R247), the schedule (R242), and the window
of 16 words that generates it (R243). -/

namespace Sys2Proof.Machine

/-! ### INIT -/

/-- Settles O14: SHA-1 has the implemented code 3, and its initial state is IV_SHA1. -/
theorem initSha1Starts : Obligations.InitSha1Starts :=
  fun _ he => exec_initOfCode_implemented he (code := 3) (by decide)

/-! ### BLOCK and FINAL of SHA-1 -/

theorem blockFold_sha1 (blk : Vector Byte 64) (h : AlgoState) : blockFold algSha1 blk h = sha1Compress h blk := rfl

theorem tailFold_sha1 (tail : List Byte) (len : Length) (h : AlgoState) :
    tailFold algSha1 tail len h = (blocksOf 64 (padTailMd .bigEndian tail len)).foldl sha1Compress h := rfl

theorem digestOf_sha1 (h : AlgoState) : digestOf algSha1 h = digestBe h := rfl

/-- Settles O24: under ALG = SHA-1 the folds are those of `sha1_compress`, and the digest is the big-endian one. -/
theorem sha1BlockAndFinal : Obligations.Sha1BlockAndFinal := by
  intro s he hp ha
  have hblock := exec_block_of_alg (code := algSha1) he hp ha (by decide) (by decide)
  have hfinal := exec_final_of_alg (code := algSha1) he hp ha (by decide) (by decide)
  simp only [blockFold_sha1, tailFold_sha1, digestOf_sha1] at hblock hfinal
  exact ⟨hblock, hfinal⟩

/-! ### The schedule -/

theorem getElem_sha1Load (B : Vector Byte 64) {k : Nat} (hk : k < 16) :
    (sha1Load B)[k] = (bytesToWords 16 .bigEndian B)[k] :=
  Vector.getElem_append_left hk

theorem getElem_sha1Expand_self (W : Vector Word 80) (k : Fin 64) :
    (sha1Expand W k)[16 + k.val] =
      rotl (W[13 + k.val] ^^^ W[8 + k.val] ^^^ W[2 + k.val] ^^^ W[k.val]) 1 :=
  Vector.getElem_set_self _

theorem getElem_sha1Expand_of_lt (W : Vector Word 80) {k : Fin 64} {i : Nat} (hi : i < 16 + k.val) :
    (sha1Expand W k)[i] = W[i] :=
  Vector.getElem_set_ne _ _ (by omega)

/-- Expansion writes no word before those it computes. -/
theorem getElem_foldl_sha1Expand {l : List (Fin 64)} {i : Nat} (hi : i < 80) (hl : ∀ k ∈ l, i < 16 + k.val)
    (W : Vector Word 80) : (l.foldl sha1Expand W)[i] = W[i] := by
  induction l generalizing W with
  | nil => rfl
  | cons k l ih =>
    have hk : i < 16 + k.val := hl k List.mem_cons_self
    have hrest : ∀ m ∈ l, i < 16 + m.val := fun m hm => hl m (List.mem_cons_of_mem k hm)
    rw [List.foldl_cons, ih hrest, getElem_sha1Expand_of_lt W hk]

/-- Up to word 16 + k, the schedule is what expansion k makes of some words W: the words are generated in increasing
order (R242), so the expansions after k write later words only. -/
theorem sha1Schedule_prefix_eq_sha1Expand (B : Vector Byte 64) (k : Fin 64) :
    ∃ W : Vector Word 80, ∀ (i : Nat) (_ : i ≤ 16 + k.val), (sha1Schedule B)[i] = (sha1Expand W k)[i] := by
  obtain ⟨before, after, hsplit⟩ := List.append_of_mem (List.mem_finRange k)
  have hsorted : (before ++ k :: after).Pairwise (· < ·) := hsplit ▸ List.pairwise_lt_finRange 64
  have hafter : ∀ m ∈ after, k < m := (List.pairwise_cons.mp (List.pairwise_append.mp hsorted).2.1).1
  refine ⟨before.foldl sha1Expand (sha1Load B), fun i hi => ?_⟩
  simp only [sha1Schedule, hsplit, List.foldl_append, List.foldl_cons]
  refine getElem_foldl_sha1Expand (by omega) (fun m hm => ?_) _
  have hkm := hafter m hm
  omega

theorem getElem_sha1Schedule_of_lt (B : Vector Byte 64) {k : Nat} (hk : k < 16) :
    (sha1Schedule B)[k] = (bytesToWords 16 .bigEndian B)[k] := by
  rw [← getElem_sha1Load B hk]
  exact getElem_foldl_sha1Expand (by omega) (fun _ _ => by omega) _

/-- The recurrence of R242, between the words of the whole schedule. -/
theorem getElem_sha1Schedule_add (B : Vector Byte 64) (k : Fin 64) :
    (sha1Schedule B)[16 + k.val] =
      rotl ((sha1Schedule B)[13 + k.val] ^^^ (sha1Schedule B)[8 + k.val] ^^^ (sha1Schedule B)[2 + k.val] ^^^
        (sha1Schedule B)[k.val]) 1 := by
  obtain ⟨W, hW⟩ := sha1Schedule_prefix_eq_sha1Expand B k
  have hearlier : ∀ (i : Nat) (_ : i < 16 + k.val), (sha1Schedule B)[i] = W[i] := fun i hi =>
    (hW i hi.le).trans (getElem_sha1Expand_of_lt W hi)
  rw [hW _ le_rfl, getElem_sha1Expand_self, hearlier _ (by omega), hearlier _ (by omega), hearlier _ (by omega),
    hearlier _ (by omega)]

/-- Settles O51: the loaded words are never written again, and each later one is computed from words already final. -/
theorem sha1ScheduleRecurrence : Obligations.Sha1ScheduleRecurrence := by
  refine fun B => ⟨fun k => ?_, getElem_sha1Schedule_add B⟩
  rw [getElem_sha1Schedule_of_lt B k.isLt, getElem_bytesToWords]
  rfl

/-! ### The rolling window -/

theorem getElem_sha1WindowShift_of_lt (Q : Vector Word 16) (w : Word) {j : Nat} (hj : j < 15) :
    (sha1WindowShift Q w)[j] = Q[j + 1] := by
  simp [sha1WindowShift, hj]

theorem getElem_sha1WindowShift_last (Q : Vector Word 16) (w : Word) : (sha1WindowShift Q w)[15] = w := by
  simp [sha1WindowShift]

/-- Words i-3, i-8, i-14 and i-16 of the schedule are words 13, 8, 2 and 0 of the window (R243), for i = 16 + k. -/
theorem sha1WindowWord_eq_sha1Schedule (B : Vector Byte 64) (k : Fin 64) {Q : Vector Word 16}
    (hQ : ∀ (j : Nat) (_ : j < 16), Q[j] = (sha1Schedule B)[k.val + j]) :
    sha1WindowWord Q = (sha1Schedule B)[16 + k.val] := by
  rw [getElem_sha1Schedule_add, sha1WindowWord, hQ 13, hQ 8, hQ 2, hQ 0]
  simp only [Nat.add_comm k.val, Nat.zero_add]

/-- After n words the window has moved n words along the schedule: the word that enters is the schedule's next. -/
theorem getElem_sha1WindowAfter (B : Vector Byte 64) {n : Nat} (hn : n ≤ 64) {j : Nat} (hj : j < 16) :
    (sha1WindowAfter B n)[j] = (sha1Schedule B)[n + j] := by
  induction n generalizing j with
  | zero =>
    simp only [Nat.zero_add]
    exact (getElem_sha1Schedule_of_lt B hj).symm
  | succ n ih =>
    have hword := sha1WindowWord_eq_sha1Schedule B ⟨n, hn⟩ fun _ => ih (by omega)
    rw [sha1WindowAfter, hword]
    obtain hj15 | rfl : j < 15 ∨ j = 15 := by omega
    · rw [getElem_sha1WindowShift_of_lt _ _ hj15, ih (by omega)]
      simp only [Nat.add_right_comm n 1 j, Nat.add_assoc]
    · rw [getElem_sha1WindowShift_last]
      simp only [Nat.add_comm 16 n]

/-- Settles O52: the window holds the 16 words before word 16 + n, and the word it feeds is computed from those. -/
theorem sha1RollingWindow : Obligations.Sha1RollingWindow := fun B n =>
  have hwindow := fun (j : Nat) (hj : j < 16) => getElem_sha1WindowAfter B n.isLt.le hj
  ⟨fun j => hwindow j.val j.isLt, sha1WindowWord_eq_sha1Schedule B n hwindow⟩

end Sys2Proof.Machine
end

section
/-! SUPPORT. The statements of 45_commands.md about one command or one access: NOP (R274), CLRERR (R278), SRST (R279),
and what the bus reads and writes at each offset (R270, R271). -/

namespace Sys2Proof.Machine

/-! ### NOP, CLRERR and SRST -/

/-- Settles O10: the word is NOP's, and its meaning is the state itself. -/
theorem nopChangesNothing : Obligations.NopChangesNothing :=
  ⟨decode_encode .nop, fun _ => rfl⟩

/-- Settles O17: the word is CLRERR's, and its meaning is `clearErrors`, behind no error gate. -/
theorem clrerrClearsErrors : Obligations.ClrerrClearsErrors :=
  ⟨decode_encode .clrerr, fun _ => rfl⟩

/-- Settles O18: the word is SRST's, and its meaning is `resetBlock`, with the free values it draws. -/
theorem srstGivesResetValues : Obligations.SrstGivesResetValues :=
  ⟨decode_encode .srst, fun s => ⟨_, (resetBlock s).algo, (resetBlock s).micro, _, rfl⟩⟩

/-! ### The register at an offset -/

/-- The offsets of a register (10_state.md R22); a reserved word has many. -/
def WindowReg.StandsAt (off : BitVec 8) : WindowReg → Prop
  | .id => off = 0x00
  | .cmd => off = 0x04
  | .status => off = 0x08
  | .caps => off = 0x0C
  | .lenLo => off = 0x10
  | .lenHi => off = 0x14
  | .blk k => off.toNat = 0x40 + 4 * k.val
  | .dig k => off.toNat = 0x80 + 4 * k.val
  | .reserved => 0x18 ≤ off.toNat ∧ off.toNat ≤ 0x3C ∨ 0x94 ≤ off.toNat

/-- An admitted access reaches a register that stands at its offset. -/
theorem standsAt_of_admitted {off : BitVec 8} {r : WindowReg} (h : admitted .bits32 off = some r) :
    r.StandsAt off := by
  replace h : windowReg off = some r := h
  simp only [windowReg] at h
  repeat' split at h
  all_goals cases h
  all_goals
    simp only [WindowReg.StandsAt]
    bv_omega

/-- An access at a multiple of 4 reaches the register that stands there. -/
theorem admitted_of_standsAt {off : BitVec 8} {r : WindowReg} (h4 : off.toNat % 4 = 0) (h : r.StandsAt off) :
    admitted .bits32 off = some r := by
  cases r with
  | id | cmd | status | caps | lenLo | lenHi =>
    cases h
    rfl
  | blk k =>
    have hoff : off = offBlk k.val := BitVec.eq_of_toNat_eq (h.trans (Nat.mod_eq_of_lt (by omega)).symm)
    exact hoff ▸ admitted_blk k.val k.isLt
  | dig k =>
    have hoff : off = offDig k.val := BitVec.eq_of_toNat_eq (h.trans (Nat.mod_eq_of_lt (by omega)).symm)
    exact hoff ▸ admitted_dig k.val k.isLt
  | reserved =>
    obtain ⟨r, hr⟩ := Option.isSome_iff_exists.mp ((admitted_isSome_iff .bits32 off).mpr ⟨rfl, h4⟩)
    have hat := standsAt_of_admitted hr
    cases r with
    | reserved => exact hr
    | _ =>
      simp only [WindowReg.StandsAt] at h hat
      bv_omega

/-- At a multiple of 4 there is one register. -/
theorem exists_admitted {off : BitVec 8} (h4 : off.toNat % 4 = 0) :
    ∃ r, admitted .bits32 off = some r ∧ ∀ r' : WindowReg, r'.StandsAt off → r = r' := by
  obtain ⟨r, hr⟩ := Option.isSome_iff_exists.mp ((admitted_isSome_iff .bits32 off).mpr ⟨rfl, h4⟩)
  exact ⟨r, hr, fun r' h => Option.some.inj (hr.symm.trans (admitted_of_standsAt h4 h))⟩

/-! ### Bus accesses -/

/-- Settles O34: the value is that of the register at the offset (R270). -/
theorem busReadsReturnTheRegister : Obligations.BusReadsReturnTheRegister := by
  intro s off h4
  obtain ⟨r, hr, hreg⟩ := exists_admitted h4
  refine ⟨readValue r s, (busRead r s).draws, ?_, fun h => ?_, fun h => ?_, fun h => ?_, fun h => ?_, fun h hb => ?_,
    fun h hb => ?_, fun k h => ?_, fun k h hb => ?_, fun h => ?_⟩
  · simp only [hostStep, hr]
    rfl
  · rw [hreg .id h]; rfl
  · rw [hreg .cmd h]; rfl
  · rw [hreg .status h]; rfl
  · rw [hreg .caps h]; rfl
  · rw [hreg .lenLo h, readValue, hb]; rfl
  · rw [hreg .lenHi h, readValue, hb]; rfl
  · rw [hreg (.blk k) h]; rfl
  · rw [hreg (.dig k) h, readValue, hb]; rfl
  · rw [hreg .reserved h]; rfl

/-- A write to a register other than CMD and BLKk is ignored (R271). -/
theorem busWrite_of_readOnly {r : WindowReg} (hcmd : r ≠ .cmd) (hblk : ∀ k, r ≠ .blk k) (v : Word) (s : State) :
    busWrite r v s = s := by
  cases r with
  | cmd => exact absurd rfl hcmd
  | blk k => exact absurd rfl (hblk k)
  | _ => rfl

/-- Settles O35: the write is that of the register at the offset (R271), and BLKk takes the word by lanes. -/
theorem busWritesReachTheRegister : Obligations.BusWritesReachTheRegister := by
  intro s off v h4
  obtain ⟨r, hr, hreg⟩ := exists_admitted h4
  refine ⟨busWrite r v s, by simp only [hostStep, hr], fun h => ?_, fun k h => ?_, fun hcmd hblk => ?_⟩
  · rw [hreg .cmd h]; rfl
  · rw [hreg (.blk k) h, busWrite]
    split
    · rfl
    · exact ⟨rfl, fun i => setLane_getElem s.blk k v i.val i.isLt⟩
  · refine busWrite_of_readOnly ?_ (fun k => ?_) v s
    · rintro rfl
      exact hcmd (standsAt_of_admitted hr)
    · rintro rfl
      have hat : off.toNat = 0x40 + 4 * k.val := standsAt_of_admitted hr
      omega

end Sys2Proof.Machine
end

section
/-! SUPPORT. The host program `hash(A, m)` of 45_commands.md R283 ends with the digest of the whole message (R282): what
the machine holds after each line, for every algorithm, and at the end the tail's padding as the message's own. -/

namespace Sys2Proof.Machine

/-! ### The parameters of an algorithm -/

theorem hashCode_le (A : HashAlg) : (hashCode A).toNat ≤ 3 := by
  cases A <;> decide

theorem hashBlockBytes_pos (A : HashAlg) : 0 < hashBlockBytes A := by
  cases A <;> decide

theorem hashBlockBytes_le (A : HashAlg) : hashBlockBytes A ≤ 64 := by
  cases A <;> decide

theorem hashInit_eq (A : HashAlg) : hashInit A = initOfCode (hashCode A) := by
  cases A <;> rfl

/-- BLOCK adds the algorithm's block size to LEN (R276). -/
theorem blockLength_hashCode (A : HashAlg) : blockLength (hashCode A) = BitVec.ofNat 64 (hashBlockBytes A) := by
  cases A <;> rfl

/-! ### Folding bytes -/

/-- The fold of one block by an algorithm, on the block itself. -/
def compressBlock : (A : HashAlg) → AlgoState → Vector Byte (hashBlockBytes A) → AlgoState
  | .md2 => md2Absorb
  | .md4 => md4Compress
  | .md5 => md5Compress
  | .sha1 => sha1Compress

/-- The whole blocks of a byte sequence folded by an algorithm, in order (20_memory.md R73). -/
def foldBytes (A : HashAlg) (h : AlgoState) (P : List Byte) : AlgoState :=
  (blocksOf (hashBlockBytes A) P).foldl (compressBlock A) h

/-- The bytes `P` folded from the initial state, as lore's A(m) folds them (R161, R191, R221, R248). -/
def hashState (A : HashAlg) (P : List Byte) : AlgoState :=
  foldBytes A (initialAlgo (hashCode A) AlgoState.zero) P

theorem hashState_nil (A : HashAlg) : hashState A [] = initialAlgo (hashCode A) AlgoState.zero := by
  simp [hashState, foldBytes, blocksOf]

theorem foldBytes_append (A : HashAlg) (h : AlgoState) {F : List Byte} (hF : F.length % hashBlockBytes A = 0)
    (Q : List Byte) : foldBytes A h (F ++ Q) = foldBytes A (foldBytes A h F) Q := by
  simp only [foldBytes, blocksOf_append (hashBlockBytes_pos A) F Q hF, List.foldl_append]

/-- As many bytes as a block holds are folded as one block. -/
theorem foldBytes_of_length (A : HashAlg) (h : AlgoState) {P : List Byte} (hP : P.length = hashBlockBytes A) :
    foldBytes A h P = compressBlock A h (blockAt _ P 0) := by
  rw [foldBytes, blocksOf, hP, Nat.div_self (hashBlockBytes_pos A)]
  rfl

/-- The first bytes of BLK as a block. -/
theorem blockAt_take_toList {n : Nat} (hn : n ≤ 64) (B : Vector Byte 64) :
    blockAt n (B.toList.take n) 0 = Vector.ofFn fun i : Fin n => B[i.val] := by
  apply Vector.ext
  intro i hi
  have hi64 : i < 64 := by omega
  simp [blockAt_getElem, hi, hi64]

/-- The block an algorithm reads is the first bytes of BLK, as many as its block size (R276). -/
theorem blockFold_hashCode (A : HashAlg) (B : Vector Byte 64) (h : AlgoState) :
    blockFold (hashCode A) B h = foldBytes A h (B.toList.take (hashBlockBytes A)) := by
  have hlen : (B.toList.take (hashBlockBytes A)).length = hashBlockBytes A := by
    simpa using hashBlockBytes_le A
  rw [foldBytes_of_length A h hlen, blockAt_take_toList (hashBlockBytes_le A)]
  cases A with
  | md2 => rfl
  | md4 => exact congrArg (md4Compress h) (Vector.ofFn_getElem (xs := B)).symm
  | md5 => exact congrArg (md5Compress h) (Vector.ofFn_getElem (xs := B)).symm
  | sha1 => exact congrArg (sha1Compress h) (Vector.ofFn_getElem (xs := B)).symm

/-! ### The digest of a whole message -/

/-- FINAL on the tail T, after the whole blocks F, writes the digest of the message F ++ T and then zeros: the padded
tail completes the padded message (40_codec_padding.md R134). -/
theorem hashBytes_prefix_digest (A : HashAlg) {F T : List Byte} (hF : F.length % hashBlockBytes A = 0)
    (hT : T.length < hashBlockBytes A) :
    hashBytes A (F ++ T) <+: (digestOf (hashCode A) (tailFold (hashCode A) T
      (BitVec.ofNat 64 (F ++ T).length) (hashState A F))).toList := by
  obtain ⟨hmd, hmd2⟩ := tailPaddingCompletesMessage F T
  have hwhole (Q : List Byte) : foldBytes A (hashState A F) Q = hashState A (F ++ Q) :=
    (foldBytes_append A _ hF Q).symm
  have hpad (e : ByteOrder) (hbs : hashBlockBytes A = 64) :
      foldBytes A (hashState A F) (padTailMd e T (BitVec.ofNat 64 (F ++ T).length)) =
        hashState A (padMd e (F ++ T)) := by
    rw [hwhole, hmd e (hbs ▸ hF) (hbs ▸ hT)]
  cases A with
  | md2 =>
    have htail : md2Absorb (hashState .md2 F) (blockAt 16 (padTailMd2 T) 0) = hashState .md2 (padMd2 (F ++ T)) := by
      rw [hmd2 hF hT, ← hwhole]
      exact (foldBytes_of_length .md2 _ (paddingIsAligned.2.2.2 T hT)).symm
    change _ <+: (digestMd2 (md2Final (hashState .md2 F) T)).toList
    rw [md2Final, htail, digestMd2, Vector.toList_append]
    exact List.prefix_append _ _
  | md4 =>
    change _ <+: (digestLe (foldBytes .md4 _ _)).toList
    rw [hpad .littleEndian rfl, digestLe, Vector.toList_append]
    exact List.prefix_append _ _
  | md5 =>
    change _ <+: (digestLe (foldBytes .md5 _ _)).toList
    rw [hpad .littleEndian rfl, digestLe, Vector.toList_append]
    exact List.prefix_append _ _
  | sha1 =>
    change _ <+: (digestBe (foldBytes .sha1 _ _)).toList
    rw [hpad .bigEndian rfl]
    exact List.prefix_rfl

end Sys2Proof.Machine
end

section
/-! SUPPORT. The host program `hash(A, m)` of 45_commands.md R283, run line by line (R282): each line takes a state
that holds the bytes hashed so far to one that holds more of them, whatever the order of the engine's steps. -/

namespace Sys2Proof.Machine

/-! ### Runs -/

/-- Some number of steps leads from `s` to `t`. -/
def RunsTo (s t : State) : Prop := ∃ k, Host.Core.run Sys2Proof.core k s = .next t

theorem RunsTo.trans {s t u : State} (hst : RunsTo s t) (htu : RunsTo t u) : RunsTo s u := by
  obtain ⟨j, hj⟩ := hst
  obtain ⟨k, hk⟩ := htu
  exact ⟨j + k, (run_add hj).trans hk⟩

theorem RunsTo.step {s t : State} (h : step s = .next t) : RunsTo s t :=
  ⟨1, run_succ h⟩

/-- The state the command `i` of a program executes in, after its CMD write and the polls of its `wait`: the inputs and
the values read are those at that point. -/
def executing (i : Instr) (ins : List Input) (reads : List Word) (s : State) : State :=
  { s with pend := encode i, busy := true, inputs := ins, reads := reads }

/-! ### A message in progress -/

section

variable {A : HashAlg} {P m T : List Byte} {checks : List (Option (BitVec 4))} {ins rest : List Input} {s : State}

theorem fieldsInRange_of_ok (hp : s.phase ≠ 3) (hc : s.errCode = 0) (ha : s.alg = hashCode A) :
    fieldsInRange s = true :=
  fieldsInRange_iff.mpr ⟨hp, by simp [hc], ha ▸ hashCode_le A⟩

/-- A message of algorithm A is in progress, its first bytes P folded, no command pending and no error; the program
goes on with the inputs `rest`, and `checks` is what the host has found. The algorithm state is that of P in the part
A uses: what INIT leaves of the others is the state's own (10_state.md R46). -/
structure Hashing (A : HashAlg) (P : List Byte) (checks : List (Option (BitVec 4))) (rest : List Input)
    (s : State) : Prop where
  busy : s.busy = false
  err : s.err = false
  errCode : s.errCode = 0
  ovr : s.ovr = false
  phase : s.phase = phaseAbsorb
  alg : s.alg = hashCode A
  len : s.len = BitVec.ofNat 64 P.length
  algo : SameUsedAlgo (hashCode A) s.algo (hashState A P)
  checks_eq : s.checks = checks
  inputs : s.inputs = rest

theorem Hashing.fields (h : Hashing A P checks rest s) : fieldsInRange s = true :=
  fieldsInRange_of_ok (by rw [h.phase]; decide) h.errCode h.alg

/-- `run init A` starts the message. -/
theorem runsTo_init (hf : fieldsInRange s = true) (hb : s.busy = false) (he : s.err = false) (hc : s.errCode = 0)
    (hv : s.ovr = false) (hi : s.inputs = ins ++ rest) (ho : ins.map Input.op = runOps (hashInit A)) :
    ∃ t, RunsTo s t ∧ Hashing A [] s.checks rest t := by
  rw [hashInit_eq] at ho
  obtain ⟨ins', rd, hrun⟩ := run_command (decode_encode _) hf hb hi ho
  have hexec := exec_initOfCode_implemented (s := executing (initOfCode (hashCode A)) ins' rd s) he
    (Nat.lt_succ_of_le (hashCode_le A))
  obtain ⟨k, rd', hk⟩ := hrun _ hexec (fieldsInRange_of_ok (A := A) (show phaseAbsorb ≠ 3 by decide) hc rfl)
  exact ⟨_, ⟨k, hk⟩, rfl, he, hc, hv, rfl, rfl, rfl,
    hashState_nil A ▸ initialAlgo_agree (hashCode_le A) _ _, rfl, rfl⟩

/-! ### Loading BLK -/

/-- Byte j of bus word k is byte `4·k + j` of the sequence, or 0 beyond its end (30_encoding.md R100). -/
theorem byteOf_busWordAt (b : List Byte) (k : Nat) {j : Nat} (hj : j < 4) :
    byteOf (busWordAt b k) j = b.getD (4 * k + j) 0 := by
  rw [busWordAt, le32_eq_be32_reverse, byteOf_be32 _ _ _ _ hj]
  match j, hj with
  | 0, _ | 1, _ | 2, _ | 3, _ => rfl

/-- `loadblk b` puts the bytes at the start of BLK (R100). -/
theorem Hashing.runsTo_loadBlk {b : List Byte} (h : Hashing A P checks (ins ++ rest) s) (hb : b.length ≤ 64)
    (ho : ins.map Input.op = loadBlkOps b) :
    ∃ t, RunsTo s t ∧ Hashing A P checks rest t ∧ t.blk.toList.take b.length = b := by
  obtain ⟨B, hrun, hB⟩ := run_storeWords (busWordAt b) ((b.length + 3) / 4) (by omega) h.fields h.busy h.inputs ho
  refine ⟨_, ⟨_, hrun⟩, { h with inputs := rfl }, ?_⟩
  apply List.ext_getElem
  · simpa using hb
  · intro i _ hi
    have hword : i / 4 < (b.length + 3) / 4 := by omega
    have hat : 4 * (i / 4) + i % 4 = i := Nat.div_add_mod i 4
    have hbyte : B[i] = b.getD i 0 := by
      rw [hB i (by omega), if_pos hword, byteOf_busWordAt _ _ (Nat.mod_lt i (by decide)), hat]
    simpa [hi] using hbyte

/-! ### The full blocks -/

/-- `run block` folds the first bytes of BLK, as many as the block size. -/
theorem Hashing.runsTo_block (h : Hashing A P checks (ins ++ rest) s) (hP : P.length % hashBlockBytes A = 0)
    (ho : ins.map Input.op = runOps .block) :
    ∃ t, RunsTo s t ∧ Hashing A (P ++ s.blk.toList.take (hashBlockBytes A)) checks rest t := by
  obtain ⟨ins', rd, hrun⟩ := run_command (decode_encode _) h.fields h.busy h.inputs ho
  have hexec := exec_block_absorb (s := executing .block ins' rd s) h.err h.phase (h.alg ▸ hashCode_le A)
  obtain ⟨k, rd', hk⟩ := hrun _ hexec h.fields
  refine ⟨_, ⟨k, hk⟩, rfl, h.err, h.errCode, h.ovr, h.phase, h.alg, ?_, ?_, h.checks_eq, rfl⟩
  · have hlen : (s.blk.toList.take (hashBlockBytes A)).length = hashBlockBytes A := by
      simpa using hashBlockBytes_le A
    rw [List.length_append, hlen, BitVec.ofNat_add, ← h.len, ← blockLength_hashCode, ← h.alg]
    rfl
  · change SameUsedAlgo _ (blockFold s.alg s.blk s.algo) _
    rw [h.alg, hashState, foldBytes_append A _ hP, ← blockFold_hashCode]
    exact blockFold_agree (hashCode_le A) s.blk h.algo

/-- The first q full blocks of the message, each loaded and folded (R283). -/
theorem Hashing.runsTo_blocks (q : Nat) (hq : q ≤ m.length / hashBlockBytes A)
    (h : Hashing A [] checks (ins ++ rest) s)
    (ho : ins.map Input.op = (List.range q).flatMap fun j =>
      loadBlkOps ((m.drop (hashBlockBytes A * j)).take (hashBlockBytes A)) ++ runOps .block) :
    ∃ t, RunsTo s t ∧ Hashing A (m.take (hashBlockBytes A * q)) checks rest t := by
  induction q generalizing ins rest with
  | zero =>
    obtain rfl : ins = [] := by simpa using ho
    exact ⟨s, ⟨0, rfl⟩, by simpa using h⟩
  | succ q ih =>
    have hfit : hashBlockBytes A * (q + 1) ≤ m.length :=
      (Nat.mul_le_mul_left _ hq).trans (Nat.mul_div_le _ _)
    rw [Nat.mul_succ] at hfit
    rw [List.range_succ, List.flatMap_append, List.flatMap_singleton] at ho
    obtain ⟨before, last, rfl, hbefore, hlast⟩ := List.map_eq_append_iff.mp ho
    obtain ⟨load, run, rfl, hload, hrun⟩ := List.map_eq_append_iff.mp hlast
    rw [List.append_assoc, List.append_assoc] at h
    obtain ⟨t, hst, ht⟩ := ih (by omega) h hbefore
    have hlen : ((m.drop (hashBlockBytes A * q)).take (hashBlockBytes A)).length = hashBlockBytes A := by
      rw [List.length_take, List.length_drop]
      omega
    obtain ⟨u, htu, hu, hblk⟩ := ht.runsTo_loadBlk (hlen.trans_le (hashBlockBytes_le A)) hload
    obtain ⟨v, huv, hv⟩ := hu.runsTo_block (by rw [List.length_take_of_le (by omega), Nat.mul_mod_right]) hrun
    rw [hlen] at hblk
    rw [hblk, ← List.take_add, ← Nat.mul_succ] at hv
    exact ⟨v, (hst.trans htu).trans huv, hv⟩

/-! ### The tail -/

/-- The message of algorithm A has been hashed, with no command pending and no error: LEN counts m, and DIG begins with
A(m). -/
structure Hashed (A : HashAlg) (m : List Byte) (checks : List (Option (BitVec 4))) (rest : List Input)
    (s : State) : Prop where
  busy : s.busy = false
  err : s.err = false
  errCode : s.errCode = 0
  ovr : s.ovr = false
  phase : s.phase = phaseDone
  alg : s.alg = hashCode A
  len : s.len = BitVec.ofNat 64 m.length
  digest : hashBytes A m <+: s.dig.toList
  checks_eq : s.checks = checks
  inputs : s.inputs = rest

theorem Hashed.fields (h : Hashed A m checks rest s) : fieldsInRange s = true :=
  fieldsInRange_of_ok (by rw [h.phase]; decide) h.errCode h.alg

/-- STATUS shows PHASE and ALG, the other fields 0 (R282). -/
theorem Hashed.statusWord_eq (h : Hashed A m checks rest s) :
    statusWord s = 0x004 + 0x100 * (hashCode A).setWidth 32 := by
  rw [statusWord, h.busy, h.err, h.errCode, h.ovr, h.phase, h.alg]
  cases A <;> rfl

/-- `checkerr` finds no error in that STATUS. -/
theorem Hashed.errorIn_eq (h : Hashed A m checks rest s) : errorIn (statusWord s) = none := by
  rw [h.statusWord_eq]
  cases A <;> rfl

theorem tailCount_ofNat {n : Nat} (hn : n < 64) : tailCount (BitVec.ofNat 6 n) = n :=
  Nat.mod_eq_of_lt hn

theorem tailLength_ofNat {n : Nat} (hn : n < 64) : tailLength (BitVec.ofNat 6 n) = BitVec.ofNat 64 n :=
  BitVec.setWidth_ofNat_of_le_of_lt (by decide) hn

/-- A tail shorter than a block is not too long for MD2, so FINAL raises no BAD_TAIL (R277). -/
theorem tail_legal {n : Nat} (hn : n < hashBlockBytes A) : ¬(hashCode A = algMd2 ∧ 16 ≤ n) := by
  rintro ⟨ha, h16⟩
  cases A with
  | md2 => exact absurd hn (Nat.not_lt.mpr h16)
  | md4 | md5 | sha1 => exact absurd ha (by decide)

theorem messageTail_length_lt (A : HashAlg) (m : List Byte) :
    (messageTail (hashBlockBytes A) m).length < hashBlockBytes A := by
  rw [messageTail, List.length_drop, ← Nat.mod_eq_sub]
  exact Nat.mod_lt _ (hashBlockBytes_pos A)

/-- `run final n`, with n the length of the tail T in BLK, ends the message P ++ T. -/
theorem Hashing.runsTo_final (h : Hashing A P checks (ins ++ rest) s)
    (hP : P.length % hashBlockBytes A = 0) (hT : T.length < hashBlockBytes A)
    (hblk : s.blk.toList.take T.length = T) (ho : ins.map Input.op = runOps (.final (BitVec.ofNat 6 T.length))) :
    ∃ t, RunsTo s t ∧ Hashed A (P ++ T) checks rest t := by
  have hle := hashBlockBytes_le A
  have hcount := tailCount_ofNat (n := T.length) (by omega)
  have hlegal : ¬(s.alg = algMd2 ∧ 16 ≤ tailCount (BitVec.ofNat 6 T.length)) := by
    rw [h.alg, hcount]
    exact tail_legal hT
  have hlen : s.len + tailLength (BitVec.ofNat 6 T.length) = BitVec.ofNat 64 (P ++ T).length := by
    rw [h.len, tailLength_ofNat (by omega), List.length_append, BitVec.ofNat_add]
  obtain ⟨ins', rd, hrun⟩ := run_command (decode_encode _) h.fields h.busy h.inputs ho
  have hexec := exec_final_absorb (s := executing (.final (BitVec.ofNat 6 T.length)) ins' rd s) h.err h.phase
    (h.alg ▸ hashCode_le A) hlegal
  obtain ⟨k, rd', hk⟩ := hrun _ hexec (fieldsInRange_of_ok (show phaseDone ≠ 3 by decide) h.errCode h.alg)
  refine ⟨_, ⟨k, hk⟩, rfl, h.err, h.errCode, h.ovr, rfl, h.alg, hlen, ?_, h.checks_eq, rfl⟩
  have hdig := tailFold_agree (hashCode_le A) T (BitVec.ofNat 64 (P ++ T).length) h.algo
  have htail : tailBytes (BitVec.ofNat 6 T.length) s = T := by rw [tailBytes, hcount, hblk]
  change _ <+: (digestOf s.alg (tailFold s.alg (tailBytes _ s) (s.len + _) s.algo)).toList
  rw [h.alg, htail, hlen, hdig]
  exact hashBytes_prefix_digest A hP hT

/-- `checkerr` finds no error. -/
theorem Hashed.runsTo_checkErr (h : Hashed A m checks (ins ++ rest) s)
    (ho : ins.map Input.op = checkErrOps) : ∃ t, RunsTo s t ∧ Hashed A m (none :: checks) rest t := by
  obtain ⟨⟨n, _⟩, rfl, rfl⟩ := List.map_eq_singleton_iff.mp ho
  refine ⟨_, .step (step_checkErr h.fields h.busy h.inputs), { h with inputs := rfl, checks_eq := ?_ }⟩
  simp only [h.errorIn_eq, h.checks_eq]

end

/-! ### The whole program -/

/-- Settles O57: the lines of the program in order, each from what the lines before it leave; the full blocks and the tail
make up the message. -/
theorem hashComputesWholeMessageDigest : Obligations.HashComputesWholeMessageDigest := by
  intro A m s hinv hb he hv ho
  have hc : s.errCode = 0 := by
    by_contra hne
    simp [hinv.errorCode.mpr hne] at he
  obtain ⟨ins₅, digIns, hins, ho, hdig⟩ := List.map_eq_append_iff.mp ho
  obtain ⟨ins₄, checkIns, rfl, ho, hcheck⟩ := List.map_eq_append_iff.mp ho
  obtain ⟨ins₃, finalIns, rfl, ho, hfinal⟩ := List.map_eq_append_iff.mp ho
  obtain ⟨ins₂, tailIns, rfl, ho, htail⟩ := List.map_eq_append_iff.mp ho
  obtain ⟨initIns, blockIns, rfl, hinit, hblocks⟩ := List.map_eq_append_iff.mp ho
  simp only [List.append_assoc] at hins
  have hshort := messageTail_length_lt A m
  obtain ⟨t₁, hs₁, h₁⟩ := runsTo_init hinv.fields hb he hc hv hins hinit
  obtain ⟨t₂, hs₂, h₂⟩ := h₁.runsTo_blocks (m.length / hashBlockBytes A) le_rfl hblocks
  obtain ⟨t₃, hs₃, h₃, hblk⟩ := h₂.runsTo_loadBlk (hshort.le.trans (hashBlockBytes_le A)) htail
  have hblocksLen : (m.take (hashBlockBytes A * (m.length / hashBlockBytes A))).length % hashBlockBytes A = 0 := by
    rw [List.length_take_of_le (Nat.mul_div_le _ _), Nat.mul_mod_right]
  obtain ⟨t₄, hs₄, h₄⟩ := h₃.runsTo_final hblocksLen hshort hblk hfinal
  rw [messageTail, List.take_append_drop] at h₄
  obtain ⟨t₅, hs₅, h₅⟩ := h₄.runsTo_checkErr hcheck
  have hread := run_readDig h₅.fields h₅.busy (rest := []) (by rw [h₅.inputs, List.append_nil]) hdig
  obtain ⟨k, hk⟩ := (((hs₁.trans hs₂).trans hs₃).trans hs₄).trans hs₅
  exact ⟨k + 5, _, (run_add hk).trans hread, rfl, h₅.busy, (List.prefix_iff_eq_take.mp h₅.digest).symm, h₅.len,
    h₅.statusWord_eq, h₅.checks_eq, rfl⟩

end Sys2Proof.Machine
end

section
/-! SUPPORT. The statements of 60_exceptions.md: what a failed or dropped command leaves unchanged (R326), and the idle
block (R336). -/

namespace Sys2Proof.Machine

/-! ### Failed and dropped commands -/

/-- A command that sets ERR has raised an error, and done nothing else (60_exceptions.md R326). -/
theorem ExecCase.eq_raiseError {s t : State} {i : Instr} (h : ExecCase s i t) (hs : s.err = false)
    (ht : t.err = true) : ∃ e, t = raiseError e s := by
  cases h with
  | raised e _ _ => exact ⟨e, rfl⟩
  | nop | dropped | started | folded | finished => exact absurd (hs.symm.trans ht) Bool.false_ne_true
  | clrerr | srst => simp at ht

/-- With ERR = 1, a command behind the error gate does nothing (45_commands.md R273). -/
theorem ExecCase.eq_of_gated {s t : State} {i : Instr} (h : ExecCase s i t) (hs : s.err = true)
    (hi : gatedByError i = true) : t = s := by
  cases h with
  | nop | dropped => rfl
  | raised e he _ => simp [hs] at he
  | started _ he _ | folded he _ _ | finished _ he _ _ _ => simp [hs] at he
  | clrerr | srst => cases hi

/-- A word that sets ERR has raised an error, and done nothing else (60_exceptions.md R326). -/
theorem executeWord_eq_raiseError {w : Word} {s t : State} (h : executeWord w s = .next t) (hs : s.err = false)
    (ht : t.err = true) : ∃ e, t = raiseError e s := by
  obtain ⟨_, rfl⟩ | ⟨i, _, hcase⟩ := executeWord_next h
  · exact ⟨.illegalCmd, rfl⟩
  · exact hcase.eq_raiseError hs ht

/-- With ERR = 1, an illegal word and a command behind the error gate do nothing (R321, 45_commands.md R273). -/
theorem executeWord_eq_of_gated {w : Word} {s t : State} (h : executeWord w s = .next t) (hs : s.err = true)
    (hw : ∀ i, decode w = .ok i → gatedByError i = true) : t = s := by
  obtain ⟨_, rfl⟩ | ⟨i, hi, hcase⟩ := executeWord_next h
  · exact raiseError_of_err _ hs
  · exact hcase.eq_of_gated hs (hw i hi)

/-- Settles O27: a word that sets ERR is a raise from ERR = 0, which writes the two fields; with ERR = 1 the gate drops
the word, or its raise changes nothing. -/
theorem failedCommandsHaveNoOtherEffect : Obligations.FailedCommandsHaveNoOtherEffect := by
  refine fun w s t h => ⟨fun hs ht => ?_, executeWord_eq_of_gated h⟩
  obtain ⟨e, rfl⟩ := executeWord_eq_raiseError h hs ht
  rw [raiseError_of_ok e hs]

/-! ### The idle block -/

/-- With no command pending the engine does not move (R336). -/
theorem engineMoves_of_idle {s : State} (hb : s.busy = false) : engineMoves s = false := by
  simp [engineMoves, hb]

/-- With nothing left to arrive, the outside's move leaves the state as it is (R336). -/
theorem inputStep_of_no_inputs {s : State} (hi : s.inputs = []) : inputStep s = .next s := by
  simp [inputStep, nextInput, hi]

/-- Settles O7: the step is the outside's, and nothing arrives. -/
theorem idleBlockHoldsItsState : Obligations.IdleBlockHoldsItsState := by
  refine fun s hb => ⟨engineMoves_of_idle hb, fun hf hi => ?_⟩
  rw [step, if_pos hf, engineMoves_of_idle hb, if_neg Bool.false_ne_true, inputStep_of_no_inputs hi]

end Sys2Proof.Machine
end

section
/-! SUPPORT. The statements of 70_reset_and_hazards.md: the two reset sources (R350, R351). -/

namespace Sys2Proof.Machine

/-- STATUS reads 0 after a reset, from any state (10_state.md R44). -/
theorem statusWord_resetBlock (s : State) : statusWord (resetBlock s) = 0 :=
  statusWord_zero ⟨rfl, rfl, rfl, rfl, rfl, rfl⟩

/-- A reset that comes next, with no command pending or before the pending one, takes its one step: the state is the
reset one, whatever was pending, and the inputs after it are still to come (70_reset_and_hazards.md R350). -/
theorem step_reset {s : State} {n : Nat} {rest : List Input} (hf : fieldsInRange s = true)
    (hi : s.inputs = ⟨n, .reset⟩ :: rest) (hb : s.busy = false ∨ n ≠ 0) :
    step s = .next (resetBlock { s with inputs := rest }) := by
  rw [step_input hf hi rfl hb, inputsAfter_access rest s HostOp.noConfusion, hostStep]

/-- Settles O19: both sources are `resetBlock`, and a reset whose turn comes first is the next step. -/
theorem resetInputEqualsSrst : Obligations.ResetInputEqualsSrst := by
  refine ⟨fun s => ?_, fun s n rest hf hi hb => ?_⟩
  · rw [hostStep, exec, execSrst]
  · exact ⟨_, step_reset hf hi hb, resetBlock_busy _, statusWord_resetBlock _, resetBlock_len _, resetBlock_blk _,
      resetBlock_dig _, resetBlock_inputs _⟩

end Sys2Proof.Machine
end

section
/-! SUPPORT. The statements of 30_encoding.md and 45_commands.md about decoding and the engine step: the word of a command
(R95, R98), and what a step with a command pending does (R272, R273). -/

namespace Sys2Proof.Machine

/-! ### The word of a command -/

/-- Settles O1: by the constructors of a command, FINAL for every tail. -/
theorem decodeInvertsEncode : Obligations.DecodeInvertsEncode :=
  decode_encode

/-- Settles O4: seven of the words are those of `encode`; the last has the reserved bit 7. -/
theorem fieldPatternsDecode : Obligations.FieldPatternsDecode :=
  ⟨decode_encode .nop, decode_encode .initSha1, decode_encode .initSha512, decode_encode .block,
    decode_encode (.final 63), decode_encode .clrerr, decode_encode .srst, rfl⟩

/-! ### The engine step -/

/-- A step that is the engine's turn is the engine step (10_state.md R20). -/
theorem step_of_engineMoves {s : State} (hf : fieldsInRange s = true) (hm : engineMoves s = true) :
    step s = engineStep s := by
  rw [step, if_pos hf, if_pos hm]

/-- A step that is not the engine's turn is the outside's move (R20). -/
theorem step_of_not_engineMoves {s : State} (hf : fieldsInRange s = true) (hm : engineMoves s = false) :
    step s = inputStep s := by
  rw [step, if_pos hf, hm, if_neg Bool.false_ne_true]

theorem executeWord_of_legal {w : Word} {i : Instr} (s : State) (h : decode w = .ok i) :
    executeWord w s = exec i s := by
  rw [executeWord, h]

/-- Settles O5: the engine step executes PEND and retires the outcome. -/
theorem stepRunsPendingCommand : Obligations.StepRunsPendingCommand := by
  intro s i hf hm hd
  rw [step_of_engineMoves hf hm, engineStep, executeWord_of_legal s hd]
  cases exec i s <;> rfl

/-- Settles O6: the illegal word raises ILLEGAL_CMD, with ERR = 0 or 1, and is retired. -/
theorem stepRecordsIllegalWord : Obligations.StepRecordsIllegalWord := by
  intro s e hf hm hd
  rw [step_of_engineMoves hf hm, engineStep, executeWord_of_illegal s hd, retire]
  by_cases he : s.err = true
  · rw [if_pos he, raiseError_of_err _ he]; rfl
  · rw [if_neg he, raiseError_of_ok _ (by simpa using he)]; rfl

/-- With every field at a value that is produced, executing a word, legal or not, completes. -/
theorem executeWord_total {s : State} (hf : fieldsInRange s = true) (w : Word) :
    ∃ t, executeWord w s = .next t := by
  obtain ⟨hp, _, ha⟩ := fieldsInRange_iff.mp hf
  cases hd : decode w with
  | error e => exact ⟨_, executeWord_of_illegal s hd⟩
  | ok i => rw [executeWord_of_legal s hd]; exact exec_total hp ha i

/-- Settles O8: the pending word completes, and retiring it clears BUSY. -/
theorem engineStepCompletes : Obligations.EngineStepCompletes := by
  intro s hf
  obtain ⟨t, ht⟩ := executeWord_total hf s.pend
  exact ⟨clearBusy t, by rw [engineStep, ht, retire], rfl⟩

end Sys2Proof.Machine
end

section
/-! SUPPORT. The statements of 45_commands.md, 60_exceptions.md and 10_state.md about one command: the order of the error
checks (R324), the first error (R321), PHASE (R30), and what each command leaves unchanged (R46, R274-R280). -/

namespace Sys2Proof.Machine

/-! ### What INIT, BLOCK and FINAL can do -/

/-- INIT of an implemented code is dropped, or starts a message (45_commands.md R275). -/
theorem exec_initOfCode_implemented_next {s t : State} {code : BitVec 3} (hc : code.toNat < 4)
    (h : exec (initOfCode code) s = .next t) :
    t = s ∨ t = startMessage code (initialAlgo code s.algo) s := by
  rw [exec_initOfCode, doInit, if_neg (by omega)] at h
  obtain ⟨_, rfl⟩ | ⟨_, ⟨⟩⟩ := throughErrorGate_next h
  · exact .inl rfl
  · exact .inr rfl

/-- INIT of a reserved code is dropped, or raises UNIMPL_ALG (R275, 30_encoding.md R97). -/
theorem exec_initOfCode_reserved_next {s t : State} {code : BitVec 3} (hc : 4 ≤ code.toNat)
    (h : exec (initOfCode code) s = .next t) : t = s ∨ t = raiseError .unimplAlg s := by
  rw [exec_initOfCode, doInit, if_pos hc] at h
  obtain ⟨_, rfl⟩ | ⟨_, ⟨⟩⟩ := throughErrorGate_next h
  · exact .inl rfl
  · exact .inr rfl

/-- BLOCK is dropped with ERR = 1, raises an error outside ABSORB, or folds in ABSORB (R276). -/
theorem exec_block_next {s t : State} (h : exec .block s = .next t) :
    (s.err = true ∧ t = s) ∨
      (s.err = false ∧ s.phase ≠ phaseAbsorb ∧ ∃ e, t = raiseError e s) ∨
      (s.err = false ∧ s.phase = phaseAbsorb ∧ t = afterBlock s (blockFold s.alg s.blk s.algo)) := by
  obtain ⟨he, rfl⟩ | ⟨he, h⟩ := throughErrorGate_next h
  · exact .inl ⟨he, rfl⟩
  · obtain ⟨hp, rfl⟩ | ⟨hp, rfl⟩ | ⟨hp, h⟩ := inAbsorb_next h
    · exact .inr (.inl ⟨he, by rw [hp]; decide, _, rfl⟩)
    · exact .inr (.inl ⟨he, by rw [hp]; decide, _, rfl⟩)
    · exact .inr (.inr ⟨he, hp, (foldBlock_next h).2⟩)

/-- FINAL n is dropped with ERR = 1, raises an error outside ABSORB or with a tail too long for MD2, or ends the
message (R277). -/
theorem exec_final_next {tail : BitVec 6} {s t : State} (h : exec (.final tail) s = .next t) :
    (s.err = true ∧ t = s) ∨
      (s.err = false ∧ (s.phase ≠ phaseAbsorb ∨ s.alg = algMd2 ∧ 16 ≤ tailCount tail) ∧ ∃ e, t = raiseError e s) ∨
      (s.err = false ∧ s.phase = phaseAbsorb ∧ ¬(s.alg = algMd2 ∧ 16 ≤ tailCount tail) ∧
        t = afterFinal s (s.len + tailLength tail)
          (tailFold s.alg (tailBytes tail s) (s.len + tailLength tail) s.algo)) := by
  obtain ⟨he, rfl⟩ | ⟨he, h⟩ := throughErrorGate_next h
  · exact .inl ⟨he, rfl⟩
  · obtain ⟨hp, rfl⟩ | ⟨hp, rfl⟩ | ⟨hp, h⟩ := inAbsorb_next h
    · exact .inr (.inl ⟨he, .inl (by rw [hp]; decide), _, rfl⟩)
    · exact .inr (.inl ⟨he, .inl (by rw [hp]; decide), _, rfl⟩)
    · obtain ⟨ha, hn, rfl⟩ | ⟨_, hn, rfl⟩ := finishMessage_next h
      · exact .inr (.inl ⟨he, .inr ⟨ha, hn⟩, _, rfl⟩)
      · exact .inr (.inr ⟨he, hp, hn, rfl⟩)

/-! ### The order of the checks -/

/-- With ERR = 1 every command behind the error gate is dropped (45_commands.md R273). -/
theorem exec_of_gated {s : State} {i : Instr} (he : s.err = true) (hi : gatedByError i = true) :
    exec i s = .next s := by
  cases i with
  | nop | clrerr | srst => cases hi
  | _ => exact throughErrorGate_of_err _ he

/-- With ERR = 0, BLOCK and FINAL are what their phase checks make of them (R276, R277). -/
theorem exec_message_eq_inAbsorb {s : State} {i : Instr} (he : s.err = false)
    (hi : i = .block ∨ ∃ n, i = .final n) : ∃ o, exec i s = inAbsorb s o := by
  obtain rfl | ⟨n, rfl⟩ := hi
  · exact ⟨_, throughErrorGate_of_ok _ he⟩
  · exact ⟨_, throughErrorGate_of_ok _ he⟩

/-- With ERR = 0, FINAL n in ABSORB under MD2 raises BAD_TAIL for n >= 16 (R277). -/
theorem exec_final_badTail {s : State} {tail : BitVec 6} (he : s.err = false) (hp : s.phase = phaseAbsorb)
    (ha : s.alg = algMd2) (ht : 16 ≤ tailCount tail) :
    exec (.final tail) s = .next (raiseError .badTail s) := by
  rw [exec, execFinal, throughErrorGate_of_ok _ he, inAbsorb_absorb _ hp, finishMessage, if_pos ⟨ha, ht⟩]

/-- Settles O26: the checks in order, each with those before it passed. -/
theorem errorsFollowPriority : Obligations.ErrorsFollowPriority := by
  refine ⟨fun s w e he hd => ?_, fun s i => exec_of_gated, initSha2RaisesUnimplAlg.2, fun s i he hi => ?_,
    fun s tail he hp ha ht => ?_⟩
  · rw [executeWord_of_illegal s hd, raiseError_of_ok _ he]
    rfl
  · obtain ⟨o, ho⟩ := exec_message_eq_inAbsorb he hi
    refine ⟨fun hp => ?_, fun hp => ?_⟩
    · rw [ho, inAbsorb_idle o hp, raiseError_of_ok _ he]
      rfl
    · rw [ho, inAbsorb_done o hp, raiseError_of_ok _ he]
      rfl
  · rw [exec_final_badTail he hp ha ht, raiseError_of_ok _ he]
    rfl

/-- With ERR = 1, only CLRERR and SRST change ERR or ERRCODE (60_exceptions.md R321). -/
theorem ExecCase.keeps_error {i : Instr} {s t : State} (h : ExecCase s i t) (he : s.err = true)
    (hclr : i ≠ .clrerr) (hsrst : i ≠ .srst) : t.err = true ∧ t.errCode = s.errCode := by
  cases h with
  | clrerr => exact absurd rfl hclr
  | srst => exact absurd rfl hsrst
  | nop | dropped => exact ⟨he, rfl⟩
  | raised e hok _ => simp [he] at hok
  | started _ hok _ | folded hok _ _ | finished _ hok _ _ _ => simp [he] at hok

/-- Settles O28: a raise changes nothing with ERR = 1, and the excluded words are those of CLRERR and SRST. -/
theorem firstErrorIsKept : Obligations.FirstErrorIsKept := by
  intro w s t h he hclr hsrst
  obtain ⟨_, rfl⟩ | ⟨i, hi, hcase⟩ := executeWord_next h
  · rw [raiseError_of_err _ he]
    exact ⟨he, rfl⟩
  · have hw := eq_encode_of_decode hi
    refine hcase.keeps_error he ?_ ?_
    · rintro rfl
      exact hclr hw
    · rintro rfl
      exact hsrst hw

/-! ### PHASE -/

/-- A command of the implemented codes is one of the four INITs (30_encoding.md R93). -/
theorem initOfCode_mem_implemented {code : BitVec 3} (hc : code.toNat ≤ 3) :
    initOfCode code ∈ [Instr.initMd2, .initMd4, .initMd5, .initSha1] := by
  obtain rfl | rfl | rfl | rfl := alg_cases hc <;> decide

/-- Settles O29: of what a command can do, only starting and finishing a message and reset write PHASE; of what the
outside can do, only reset. -/
theorem phaseMovesOnlyAsListed : Obligations.PhaseMovesOnlyAsListed := by
  refine ⟨fun i s t h hne => ?_, fun op s t h hne => ?_⟩
  · cases exec_cases h with
    | nop | clrerr | dropped | folded => exact absurd rfl hne
    | raised e => exact absurd (raiseError_phase e s) hne
    | started code _ hc => exact .inl ⟨initOfCode_mem_implemented hc, rfl⟩
    | finished tail _ hp => exact .inr (.inl ⟨⟨tail, rfl⟩, hp, rfl⟩)
    | srst => exact .inr (.inr ⟨rfl, rfl⟩)
  · obtain ⟨_, _, _, _, _, rfl⟩ | ⟨_, _, _, _, _, _, rfl⟩ | ⟨_, rfl⟩ | ⟨_, rfl⟩ | ⟨hop, rfl⟩ := hostStep_next h
    · exact absurd (busRead_phase _ s) hne
    · exact absurd (busWrite_phase _ _ s) hne
    · exact absurd (busRead_phase .status s) hne
    · exact absurd (busRead_phase .status s) hne
    · exact ⟨hop, resetBlock_phase s⟩

/-! ### Frames -/

/-- A read of BLKk depends on BLK only, whatever BUSY is (R270). -/
theorem readValue_blk_congr {s t : State} (h : t.blk = s.blk) (k : Fin 16) :
    readValue (.blk k) t = readValue (.blk k) s := by
  simp only [readValue, h]

/-- No command but SRST writes BLK, PEND or BUSY (10_state.md R45). -/
theorem ExecCase.keeps_command {i : Instr} {s t : State} (h : ExecCase s i t) (hi : i ≠ .srst) :
    t.blk = s.blk ∧ t.pend = s.pend ∧ t.busy = s.busy := by
  cases h with
  | srst => exact absurd rfl hi
  | raised e => exact ⟨raiseError_blk e s, raiseError_pend e s, raiseError_busy e s⟩
  | _ => exact ⟨rfl, rfl, rfl⟩

/-- OVR after a command is what it was, or 0 (R33, R45). -/
theorem ExecCase.ovr_of_ovr {i : Instr} {s t : State} (h : ExecCase s i t) (ht : t.ovr = true) : s.ovr = true := by
  cases h with
  | clrerr | srst => cases ht
  | raised e => exact (raiseError_ovr e s).symm.trans ht
  | _ => exact ht

/-- Settles O30: field by field over what a command can do. -/
theorem commandsLeaveBlkAndPend : Obligations.CommandsLeaveBlkAndPend := by
  intro i s t h
  obtain ⟨hinputs, hreads, hchecks⟩ := exec_outside h
  refine ⟨hinputs, hreads, hchecks, (exec_cases h).ovr_of_ovr, fun hi => ?_⟩
  obtain ⟨hblk, hpend, hbusy⟩ := (exec_cases h).keeps_command hi
  exact ⟨hblk, readValue_blk_congr hblk, hpend, hbusy⟩

theorem SameOutside.refl (s : State) : SameOutside s s := ⟨rfl, rfl, rfl, rfl⟩

theorem raiseError_sameOutside (e : CommandError) (s : State) : SameOutside s (raiseError e s) :=
  ⟨raiseError_pend e s, raiseError_inputs e s, raiseError_reads e s, raiseError_checks e s⟩

/-- INIT, whatever its code, leaves what lies outside the block, BLK, BUSY, the micro-state and OVR (R46, 45_commands.md
R275). -/
theorem init_frame {code : BitVec 3} {s t : State} (h : exec (initOfCode code) s = .next t) :
    SameOutside s t ∧ t.blk = s.blk ∧ t.busy = s.busy ∧ t.micro = s.micro ∧ t.draws = s.draws ∧ t.ovr = s.ovr := by
  by_cases hc : code.toNat < 4
  · obtain rfl | rfl := exec_initOfCode_implemented_next hc h
    · exact ⟨.refl _, rfl, rfl, rfl, rfl, rfl⟩
    · exact ⟨⟨rfl, rfl, rfl, rfl⟩, rfl, rfl, rfl, rfl, rfl⟩
  · obtain rfl | rfl := exec_initOfCode_reserved_next (Nat.not_lt.mp hc) h
    · exact ⟨.refl _, rfl, rfl, rfl, rfl, rfl⟩
    · exact ⟨raiseError_sameOutside _ s, raiseError_blk _ s, raiseError_busy _ s, raiseError_micro _ s,
        raiseError_draws _ s, raiseError_ovr _ s⟩

/-- INIT of an implemented code raises nothing (R275). -/
theorem init_implemented_frame {code : BitVec 3} (hc : code.toNat < 4) {s t : State}
    (h : exec (initOfCode code) s = .next t) : t.err = s.err ∧ t.errCode = s.errCode := by
  obtain rfl | rfl := exec_initOfCode_implemented_next hc h
  · exact ⟨rfl, rfl⟩
  · exact ⟨rfl, rfl⟩

/-- INIT of a reserved code starts no message (R275). -/
theorem init_reserved_frame {code : BitVec 3} (hc : 4 ≤ code.toNat) {s t : State}
    (h : exec (initOfCode code) s = .next t) :
    t.algo = s.algo ∧ t.len = s.len ∧ t.dig = s.dig ∧ t.alg = s.alg ∧ t.phase = s.phase := by
  obtain rfl | rfl := exec_initOfCode_reserved_next hc h
  · exact ⟨rfl, rfl, rfl, rfl, rfl⟩
  · exact ⟨raiseError_algo _ s, raiseError_len _ s, raiseError_dig _ s, raiseError_alg _ s, raiseError_phase _ s⟩

/-- INIT of MD4, MD5 and SHA-1 writes none of X, C and L (R46). -/
theorem initialAlgo_sameMd2State {code : BitVec 3} (hc : code.toNat < 4) (hne : code ≠ algMd2) (h : AlgoState) :
    SameMd2State h (initialAlgo code h) := by
  obtain rfl | rfl | rfl | rfl := alg_cases (Nat.le_of_lt_succ hc)
  · exact absurd rfl hne
  · exact ⟨rfl, rfl, rfl⟩
  · exact ⟨rfl, rfl, rfl⟩
  · exact ⟨rfl, rfl, rfl⟩

/-- What INIT leaves of the algorithm state, for an implemented code (R46). -/
theorem init_algo_frame {code : BitVec 3} (hc : code.toNat < 4) {s t : State}
    (h : exec (initOfCode code) s = .next t) :
    (code = algMd2 → SameChaining s.algo t.algo) ∧ (code ≠ algMd2 → SameMd2State s.algo t.algo) := by
  obtain rfl | rfl := exec_initOfCode_implemented_next hc h
  · exact ⟨fun _ => ⟨rfl, rfl, rfl, rfl, rfl⟩, fun _ => ⟨rfl, rfl, rfl⟩⟩
  · refine ⟨?_, fun hne => initialAlgo_sameMd2State hc hne s.algo⟩
    rintro rfl
    exact ⟨rfl, rfl, rfl, rfl, rfl⟩

/-- Which codes the lists of commands of the statement name (30_encoding.md R93). -/
theorem code_of_initOfCode_mem (code : BitVec 3) :
    (initOfCode code ∈ [.nop, .initMd2, .initMd4, .initMd5, .initSha1] → code.toNat < 4) ∧
    (initOfCode code ∈ [.nop, .clrerr, .initSha224, .initSha256, .initSha384, .initSha512] → 4 ≤ code.toNat) ∧
    (initOfCode code = .initMd2 → code.toNat < 4 ∧ code = algMd2) ∧
    (initOfCode code ∈ [.initMd4, .initMd5, .initSha1] → code.toNat < 4 ∧ code ≠ algMd2) := by
  revert code
  decide

/-- Settles O31: NOP and CLRERR are their own record updates, and every other command of the list is INIT of a code,
of which 0-3 are implemented. -/
theorem initAndControlFrames : Obligations.InitAndControlFrames := by
  intro i s t h hi
  have command : i = .nop ∨ i = .clrerr ∨ ∃ code : BitVec 3, initOfCode code = i := by
    clear h
    revert i
    decide
  obtain rfl | rfl | ⟨code, rfl⟩ := command
  · cases h
    exact ⟨.refl s, rfl, rfl, rfl, rfl, fun _ => rfl, fun _ => ⟨rfl, rfl⟩, fun _ => ⟨rfl, rfl, rfl, rfl, rfl⟩,
      fun _ => ⟨rfl, rfl, rfl, rfl, rfl⟩, fun _ => ⟨rfl, rfl, rfl⟩⟩
  · cases h
    exact ⟨⟨rfl, rfl, rfl, rfl⟩, rfl, rfl, rfl, rfl, fun hne => absurd rfl hne, fun hmem => absurd hmem (by decide),
      fun _ => ⟨rfl, rfl, rfl, rfl, rfl⟩, fun _ => ⟨rfl, rfl, rfl, rfl, rfl⟩, fun _ => ⟨rfl, rfl, rfl⟩⟩
  · obtain ⟨houtside, hblk, hbusy, hmicro, hdraws, hovr⟩ := init_frame h
    obtain ⟨himpl, hres, hmd2, hmd⟩ := code_of_initOfCode_mem code
    exact ⟨houtside, hblk, hbusy, hmicro, hdraws, fun _ => hovr, fun hmem => init_implemented_frame (himpl hmem) h,
      fun hmem => init_reserved_frame (hres hmem) h, fun heq => (init_algo_frame (hmd2 heq).1 h).1 (hmd2 heq).2,
      fun hmem => (init_algo_frame (hmd hmem).1 h).2 (hmd hmem).2⟩

/-- A command that keeps the algorithm state keeps every part of it. -/
theorem algo_frame_of_eq {code : BitVec 3} {h k : AlgoState} (e : k = h) :
    (code = 0 → SameChaining h k) ∧ (code ≠ 0 → SameMd2State h k) ∧ (code = 1 ∨ code = 2 → k.h4 = h.h4) := by
  subst e
  exact ⟨fun _ => ⟨rfl, rfl, rfl, rfl, rfl⟩, fun _ => ⟨rfl, rfl, rfl⟩, fun _ => rfl⟩

/-- Settles O32: BLOCK dropped, raising an error outside ABSORB, or folding in ABSORB. -/
theorem blockFrame : Obligations.BlockFrame := by
  intro s t h
  obtain ⟨he, rfl⟩ | ⟨he, hp, e, rfl⟩ | ⟨he, hp, rfl⟩ := exec_block_next h
  · obtain ⟨halgo2, halgo, hh4⟩ := algo_frame_of_eq (code := t.alg) (rfl : t.algo = t.algo)
    exact ⟨.refl t, rfl, rfl, rfl, rfl, rfl, rfl, fun _ => rfl, halgo2, halgo, hh4, fun _ => ⟨rfl, rfl⟩,
      fun _ => ⟨rfl, rfl, rfl⟩⟩
  · obtain ⟨halgo2, halgo, hh4⟩ := algo_frame_of_eq (code := s.alg) (raiseError_algo e s)
    exact ⟨raiseError_sameOutside e s, raiseError_blk e s, raiseError_busy e s, raiseError_dig e s,
      raiseError_phase e s, raiseError_alg e s, raiseError_ovr e s, readValue_blk_congr (raiseError_blk e s), halgo2,
      halgo, hh4, fun hq => hq.elim (fun hq => by simp [he] at hq) fun hq => absurd hq hp,
      fun _ => ⟨raiseError_algo e s, raiseError_len e s, raiseError_micro e s⟩⟩
  · obtain ⟨halgo2, halgo, hh4⟩ := blockFold_frame s.alg s.blk s.algo
    exact ⟨⟨rfl, rfl, rfl, rfl⟩, rfl, rfl, rfl, rfl, rfl, rfl, fun _ => rfl, halgo2, halgo, hh4, fun _ => ⟨rfl, rfl⟩,
      fun hq => hq.elim (fun hq => by simp [he] at hq) fun hq => absurd hp hq⟩

/-- Settles O33: FINAL dropped, raising an error outside ABSORB or at BAD_TAIL, or ending the message. -/
theorem finalFrame : Obligations.FinalFrame := by
  intro tail s t h
  obtain ⟨he, rfl⟩ | ⟨he, hp, e, rfl⟩ | ⟨he, hp, hn, rfl⟩ := exec_final_next h
  · obtain ⟨halgo2, halgo, hh4⟩ := algo_frame_of_eq (code := t.alg) (rfl : t.algo = t.algo)
    exact ⟨.refl t, rfl, rfl, rfl, rfl, fun _ => rfl, halgo2, halgo, hh4, fun _ => ⟨rfl, rfl⟩,
      fun _ => ⟨rfl, rfl, rfl, rfl, rfl⟩⟩
  · obtain ⟨halgo2, halgo, hh4⟩ := algo_frame_of_eq (code := s.alg) (raiseError_algo e s)
    refine ⟨raiseError_sameOutside e s, raiseError_blk e s, raiseError_busy e s, raiseError_alg e s,
      raiseError_ovr e s, readValue_blk_congr (raiseError_blk e s), halgo2, halgo, hh4, ?_,
      fun _ => ⟨raiseError_algo e s, raiseError_len e s, raiseError_dig e s, raiseError_phase e s,
        raiseError_micro e s⟩⟩
    rintro (herr | ⟨habs, hlegal⟩)
    · simp [he] at herr
    · exact absurd hp (not_or.mpr ⟨not_not.mpr habs, hlegal⟩)
  · obtain ⟨halgo2, halgo, hh4⟩ :=
      tailFold_frame s.alg (tailBytes tail s) (s.len + tailLength tail) s.algo
    refine ⟨⟨rfl, rfl, rfl, rfl⟩, rfl, rfl, rfl, rfl, fun _ => rfl, halgo2, halgo, hh4, fun _ => ⟨rfl, rfl⟩, ?_⟩
    rintro (herr | hidle | hbad)
    · simp [he] at herr
    · exact absurd hp hidle
    · exact absurd hbad hn

/-! ### What BLOCK and FINAL read of BLK -/

theorem raiseError_withBlk (e : CommandError) (s : State) (B : Vector Byte 64) :
    raiseError e { s with blk := B } = { raiseError e s with blk := B } := by
  unfold raiseError
  split <;> rfl

/-- The error gate and the phase checks do not read BLK: if what stands behind them does the same with other bytes in
BLK, so does the command (R273, R276, R277). -/
theorem message_withBlk {s t : State} {o o' : Outcome} (B : Vector Byte 64)
    (ho : o = .next t → o' = .next { t with blk := B }) (h : throughErrorGate s (inAbsorb s o) = .next t) :
    throughErrorGate { s with blk := B } (inAbsorb { s with blk := B } o') = .next { t with blk := B } := by
  obtain ⟨he, rfl⟩ | ⟨he, h⟩ := throughErrorGate_next h
  · exact throughErrorGate_of_err _ he
  · rw [throughErrorGate_of_ok (s := { s with blk := B }) _ he]
    obtain ⟨hp, rfl⟩ | ⟨hp, rfl⟩ | ⟨hp, h⟩ := inAbsorb_next h
    · rw [inAbsorb_idle (s := { s with blk := B }) _ hp, raiseError_withBlk]
    · rw [inAbsorb_done (s := { s with blk := B }) _ hp, raiseError_withBlk]
    · rw [inAbsorb_absorb (s := { s with blk := B }) _ hp, ho h]

/-- The tail is the first n bytes of BLK (R277). -/
theorem tailBytes_congr {tail : BitVec 6} {s u : State}
    (h : ∀ i : Fin 64, i.val < tail.toNat → u.blk[i] = s.blk[i]) : tailBytes tail u = tailBytes tail s := by
  apply List.ext_getElem
  · simp [tailBytes]
  · intro i hi _
    have hi : i < tail.toNat ∧ i < 64 := by simpa [tailBytes, tailCount] using hi
    simpa [tailBytes] using h ⟨i, hi.2⟩ hi.1

/-- With the same first n bytes in BLK, FINAL n ends the message the same (R277). -/
theorem finishMessage_withBlk {tail : BitVec 6} {s t : State} {B : Vector Byte 64}
    (hB : ∀ i : Fin 64, i.val < tail.toNat → B[i] = s.blk[i]) (h : finishMessage tail s = .next t) :
    finishMessage tail { s with blk := B } = .next { t with blk := B } := by
  obtain ⟨ha, hn, rfl⟩ | ⟨hc, hn, rfl⟩ := finishMessage_next h
  · rw [finishMessage, if_pos (show s.alg = algMd2 ∧ 16 ≤ tailCount tail from ⟨ha, hn⟩), raiseError_withBlk]
  · rw [finishMessage_eq tail (s := { s with blk := B }) hc hn, tailBytes_congr hB]
    rfl

/-- With the same first 16 bytes in BLK, the fold of BLOCK under MD2 is the same (R276). -/
theorem foldBlock_md2_withBlk {s t : State} {B : Vector Byte 64} (ha : s.alg = algMd2)
    (hB : ∀ i : Fin 64, i.val < 16 → B[i] = s.blk[i]) (h : foldBlock s = .next t) :
    foldBlock { s with blk := B } = .next { t with blk := B } := by
  have hfirst : firstSixteen B = firstSixteen s.blk := by
    apply Vector.ext
    intro i hi
    simpa [firstSixteen] using hB ⟨i, by omega⟩ hi
  obtain ⟨hc, rfl⟩ := foldBlock_next h
  rw [foldBlock_eq (s := { s with blk := B }) hc]
  simp only [blockFold, if_pos ha, hfirst]
  rfl

/-- Settles O25: the checks before the folds do not read BLK, and the folds read the tail bytes or the first 16. -/
theorem staleBlkBytesDoNotMatter : Obligations.StaleBlkBytesDoNotMatter :=
  fun _ _ B => ⟨fun _ hB => message_withBlk B (finishMessage_withBlk hB),
    fun ha hB => message_withBlk B (foldBlock_md2_withBlk ha hB)⟩

end Sys2Proof.Machine
end

section
/-! SUPPORT. The statements of 10_state.md R29, R44 and 20_memory.md about the window: the fields of STATUS, the reset
values, the byte lanes (R63), accesses with a command pending (R71), and accesses that are not admitted (R62). -/

namespace Sys2Proof.Machine

/-! ### STATUS -/

theorem statusWord_phase (s : State) : (statusWord s).extractLsb' 1 2 = s.phase := by
  apply BitVec.eq_of_getElem_eq
  intro i hi
  interval_cases i <;> simp [statusWord, flagWord]

theorem statusWord_err (s : State) : (statusWord s).getLsbD 3 = s.err := by
  simp [statusWord, flagWord]

theorem statusWord_errCode (s : State) : (statusWord s).extractLsb' 4 4 = s.errCode := by
  apply BitVec.eq_of_getElem_eq
  intro i hi
  interval_cases i <;> simp [statusWord, flagWord]

theorem statusWord_alg (s : State) : (statusWord s).extractLsb' 8 3 = s.alg := by
  apply BitVec.eq_of_getElem_eq
  intro i hi
  interval_cases i <;> simp [statusWord, flagWord]

theorem statusWord_ovr (s : State) : (statusWord s).getLsbD 11 = s.ovr := by
  simp [statusWord, flagWord]

theorem statusWord_reserved (s : State) : (statusWord s).extractLsb' 12 20 = 0 := by
  apply BitVec.eq_of_getElem_eq
  intro i hi
  interval_cases i <;> simp [statusWord, flagWord]

/-- Settles O40: bit by bit, each field at its place. -/
theorem statusHoldsItsFields : Obligations.StatusHoldsItsFields := fun s =>
  ⟨statusWord_bit0 s, statusWord_phase s, statusWord_err s, statusWord_errCode s, statusWord_alg s, statusWord_ovr s,
    statusWord_reserved s⟩

/-! ### Reset values -/

/-- Bytes 0 read as the word 0 (20_memory.md R63). -/
theorem laneWord_replicate_zero {n : Nat} (k : Nat) (h : 4 * k + 3 < n) :
    laneWord (Vector.replicate n 0) k h = 0 := by
  simp [laneWord, le32]

/-- Settles O20: STATUS and LEN are 0 field by field, and the bytes of BLK and DIG are 0. -/
theorem resetValuesReadThroughWindow : Obligations.ResetValuesReadThroughWindow :=
  ⟨rfl, statusWord_zero ⟨rfl, rfl, rfl, rfl, rfl, rfl⟩, rfl, rfl, rfl, rfl, fun k => laneWord_replicate_zero k.val _,
    fun k => laneWord_replicate_zero k.val _⟩

/-! ### The byte lanes -/

/-- Byte j of word k after a write of that word. -/
theorem getElem_setLane_self (B : Vector Byte 64) (k : Fin 16) (v : Word) {j : Nat} (hj : j < 4) :
    (setLane B k v)[4 * k.val + j] = byteOf v j := by
  have hword : (4 * k.val + j) / 4 = k.val := by omega
  have hbyte : (4 * k.val + j) % 4 = j := by omega
  rw [setLane_getElem, if_pos hword, hbyte]

/-- Byte j of another word after a write of word k. -/
theorem getElem_setLane_of_ne (B : Vector Byte 64) {k k' : Fin 16} (hk : k' ≠ k) (v : Word) {j : Nat} (hj : j < 4) :
    (setLane B k v)[4 * k'.val + j] = B[4 * k'.val + j] := by
  have hword : (4 * k'.val + j) / 4 ≠ k.val := fun h => hk (Fin.ext (by omega))
  rw [setLane_getElem, if_neg hword]

/-- A word written by lanes reads back whole (20_memory.md R63). -/
theorem laneWord_setLane_self (B : Vector Byte 64) (k : Fin 16) (v : Word) :
    laneWord (setLane B k v) k.val (by omega) = v := by
  rw [laneWord, getElem_setLane_self B k v (show 1 < 4 by decide), getElem_setLane_self B k v (show 2 < 4 by decide),
    getElem_setLane_self B k v (show 3 < 4 by decide)]
  have h0 := getElem_setLane_self B k v (show 0 < 4 by decide)
  simp only [Nat.add_zero] at h0
  rw [h0]
  exact wordOf_serialByte .littleEndian v

/-- The other words read as before (R63). -/
theorem laneWord_setLane_of_ne (B : Vector Byte 64) {k k' : Fin 16} (hk : k' ≠ k) (v : Word) :
    laneWord (setLane B k v) k'.val (by omega) = laneWord B k'.val (by omega) := by
  have h0 := getElem_setLane_of_ne B hk v (show 0 < 4 by decide)
  simp only [Nat.add_zero] at h0
  rw [laneWord, laneWord, h0, getElem_setLane_of_ne B hk v (show 1 < 4 by decide),
    getElem_setLane_of_ne B hk v (show 2 < 4 by decide), getElem_setLane_of_ne B hk v (show 3 < 4 by decide)]

/-- Settles O36: the write sets the four lanes of BLKk and no other. -/
theorem blkWordReadsBack : Obligations.BlkWordReadsBack := by
  intro s t k v hb h
  have hwrite : busWrite (.blk k) v s = { s with blk := setLane s.blk k v } := if_neg (by simp [hb])
  simp only [hostStep, admitted_blk k.val k.isLt] at h
  obtain rfl := (Host.Outcome.next.inj h).symm.trans hwrite
  exact ⟨laneWord_setLane_self s.blk k v, fun j => getElem_setLane_self s.blk k v j.isLt,
    fun _ hk => laneWord_setLane_of_ne s.blk hk v⟩

/-! ### Accesses with a command pending -/

/-- A write with a command pending sets OVR at most (45_commands.md R271). -/
theorem busWrite_of_busy {s : State} (hb : s.busy = true) (r : WindowReg) (v : Word) :
    ∃ b, busWrite r v s = { s with ovr := b } := by
  cases r with
  | cmd | blk => exact ⟨true, by rw [busWrite, if_pos hb]⟩
  | _ => exact ⟨s.ovr, rfl⟩

/-- Settles O37: a read changes the record of the host only, and a write is dropped. -/
theorem pendingCommandKeepsItsBlk : Obligations.PendingCommandKeepsItsBlk := by
  intro op s t hb h hne
  obtain ⟨_, _, _, _, _, rfl⟩ | ⟨_, _, v, r, _, _, rfl⟩ | ⟨_, rfl⟩ | ⟨_, rfl⟩ | ⟨rfl, _⟩ := hostStep_next h
  · exact ⟨hb, rfl, rfl, rfl, rfl, rfl, rfl, rfl, rfl, rfl, rfl, rfl⟩
  · obtain ⟨b, hw⟩ := busWrite_of_busy hb r v
    rw [hw]
    exact ⟨hb, rfl, rfl, rfl, rfl, rfl, rfl, rfl, rfl, rfl, rfl, rfl⟩
  · exact ⟨hb, rfl, rfl, rfl, rfl, rfl, rfl, rfl, rfl, rfl, rfl, rfl⟩
  · exact ⟨hb, rfl, rfl, rfl, rfl, rfl, rfl, rfl, rfl, rfl, rfl, rfl⟩
  · exact absurd rfl hne

/-! ### Accesses that are not admitted -/

/-- A move the outside cannot make leaves the host stuck (20_memory.md R62). -/
theorem hostStep_of_not_enabled {op : HostOp} (s : State) (h : hostOpEnabled op = false) :
    hostStep op s = .fault .hostStuck := by
  cases op with
  | read width off | write width off v =>
    have hnone : admitted width off = none := Option.isSome_eq_false_iff.mp h |> Option.isNone_iff_eq_none.mp
    simp only [hostStep, hnone]
  | wait | checkErr | reset => cases h

theorem firstReset_eq_none {l : List Input} (h : ∀ i ∈ l, i.op ≠ .reset) : firstReset l = none := by
  induction l with
  | nil => rfl
  | cons i l ih =>
    rw [firstReset, if_neg (h i List.mem_cons_self)]
    exact ih fun j hj => h j (List.mem_cons_of_mem i hj)

/-- With the host stuck, no command pending and no reset to come, nothing can move (R62). -/
theorem step_of_nothing_moves {s : State} {i : Input} {rest : List Input} (hf : fieldsInRange s = true)
    (hb : s.busy = false) (hs : s.inputs = i :: rest) (hi : hostOpEnabled i.op = false)
    (hrest : ∀ j ∈ rest, j.op ≠ .reset) : step s = .fault .hostStuck := by
  have hnone : nextInput (i :: rest) = none := by
    rw [nextInput, if_neg (by simp [hi]), firstReset_eq_none hrest, Option.map_none]
  rw [step_of_not_engineMoves hf (engineMoves_of_idle hb), inputStep, hs, hnone]
  rfl

/-- A move of the outside leaves the inputs to come. -/
theorem hostStep_inputs {op : HostOp} {s t : State} (h : hostStep op s = .next t) : t.inputs = s.inputs := by
  obtain ⟨_, _, _, _, _, rfl⟩ | ⟨_, _, _, _, _, _, rfl⟩ | ⟨_, rfl⟩ | ⟨_, rfl⟩ | ⟨_, rfl⟩ := hostStep_next h
  · rfl
  · exact busWrite_inputs _ _ s
  · rfl
  · rfl
  · rfl

/-- Settles O38: an access is a move of the outside exactly if it is an aligned 32-bit one. -/
theorem narrowOrMisalignedAccessIsStuck : Obligations.NarrowOrMisalignedAccessIsStuck := by
  intro s width off v op hop
  have henabled := hostOpEnabled_access_iff hop
  refine ⟨fun hbad => ?_, fun hw ho n rest hf hb hs => ?_⟩
  · have hstuck : hostOpEnabled op = false := by
      rw [← Bool.not_eq_true, henabled]
      exact fun h => hbad.elim (· h.1) (· h.2)
    exact ⟨hostStep_of_not_enabled s hstuck, fun n rest hf hb hs hrest => step_of_nothing_moves hf hb hs hstuck hrest⟩
  · have hmove : hostOpEnabled op = true := henabled.mpr ⟨hw, ho⟩
    obtain ⟨t, ht⟩ := hostStep_enabled { s with inputs := rest } hmove
    exact ⟨t, by rw [step_idle hf hb hs hmove, ht], hostStep_inputs ht⟩

end Sys2Proof.Machine
end

section
/-! SUPPORT. The statements of 10_state.md R20 and 30_encoding.md R100 about the order of the outside's moves and the
engine's: `wait`, `checkerr`, and the turn of a pending command (45_commands.md R272). -/

namespace Sys2Proof.Machine

/-! ### `wait` and `checkerr` -/

/-- Settles O58: with no poll left before the pending command the engine moves, else the outside reads STATUS. -/
theorem waitPollsUntilIdle : Obligations.WaitPollsUntilIdle := by
  refine fun s n rest hf hi => ⟨fun hb hn => step_engine hf hb hi rfl hn, fun hm => ?_⟩
  have hafter : inputsAfter ⟨n, .wait⟩ rest s =
      if (statusWord s).getLsbD 0 then ⟨n - 1, .wait⟩ :: rest else rest := by
    simp [inputsAfter, readValue]
  rw [step_input hf hi rfl hm, hafter]
  rfl

/-- Settles O59: the read of STATUS is the one step of the input, and ERR and ERRCODE are the bits tested. -/
theorem checkerrTakesErrorCode : Obligations.CheckerrTakesErrorCode := by
  refine fun s n rest hf hi hm => ⟨?_, statusWord_err s, statusWord_errCode s⟩
  rw [step_input hf hi rfl hm, inputsAfter_access rest s HostOp.noConfusion]
  rfl

/-! ### The turn of a pending command -/

/-- With a command pending that is not the next to move, the next input is one that can move and still comes before it. -/
theorem nextInput_of_not_engineMoves {s : State} (hb : s.busy = true) (hm : engineMoves s = false) :
    ∃ p, nextInput s.inputs = some p ∧ p.1.before ≠ 0 := by
  rw [engineMoves, hb, Bool.true_and] at hm
  cases hp : nextInput s.inputs with
  | none => simp [hp] at hm
  | some p => exact ⟨p, rfl, by simpa [hp] using hm⟩

/-- A step that is not the engine's, with a command pending, is a reset, or takes one of the steps that come before the
command and leaves the command pending. -/
theorem step_before_pending {s : State} (hf : fieldsInRange s = true) (hb : s.busy = true)
    (hm : engineMoves s = false) : ∃ t, step s = .next t ∧ 0 < stepsBefore s.inputs ∧
      ((t.busy = false ∧ statusWord t = 0) ∨
        (fieldsInRange t = true ∧ t.busy = true ∧ t.pend = s.pend ∧ stepsBefore t.inputs < stepsBefore s.inputs)) := by
  obtain ⟨p, hp, hbefore⟩ := nextInput_of_not_engineMoves hb hm
  obtain ⟨henabled, hsteps⟩ := nextInput_some hp
  obtain ⟨t, ht⟩ := hostStep_enabled { s with inputs := inputsAfter p.1 p.2 s } henabled
  refine ⟨t, ?_, by omega, ?_⟩
  · rw [step_of_not_engineMoves hf hm, inputStep, hp]
    exact ht
  · by_cases hreset : p.1.op = .reset
    · rw [hreset] at ht
      cases ht
      exact .inl ⟨rfl, statusWord_resetBlock _⟩
    · obtain ⟨hbusy, _, hpend, _, _, _, hphase, _, herrCode, halg, _, hinputs⟩ :=
        pendingCommandKeepsItsBlk _ { s with inputs := inputsAfter p.1 p.2 s } t hb ht hreset
      refine .inr ⟨?_, hbusy, hpend, ?_⟩
      · rw [← hf]
        exact fieldsInRange_congr hphase herrCode halg
      · rw [hinputs]
        exact (inputsAfter_before p.1 p.2 s hbefore).trans_le hsteps

/-- Settles O9: by induction on the steps that come before the command. -/
theorem pendingCommandGetsItsTurn : Obligations.PendingCommandGetsItsTurn := by
  intro s hf hb
  induction hn : stepsBefore s.inputs using Nat.strong_induction_on generalizing s with
  | _ n ih =>
    subst hn
    cases hm : engineMoves s with
    | true => exact ⟨0, s, Nat.zero_le _, rfl, .inl ⟨hm, rfl⟩⟩
    | false =>
      obtain ⟨u, hu, hpos, ⟨hbusy, hstatus⟩ | ⟨hfu, hbu, hpend, hless⟩⟩ := step_before_pending hf hb hm
      · exact ⟨1, u, hpos, run_succ hu, .inr ⟨hbusy, hstatus⟩⟩
      · obtain ⟨k, t, hk, hrun, hend⟩ := ih _ hless u hfu hbu rfl
        rw [hpend] at hend
        have hle : k + 1 ≤ stepsBefore s.inputs := Nat.succ_le_of_lt (lt_of_le_of_lt hk hless)
        exact ⟨k + 1, t, hle, (run_succ hu).trans hrun, hend⟩

end Sys2Proof.Machine
end

section
/-! SUPPORT. The statement of 40_codec_padding.md R131: how many blocks the padding makes. -/

namespace Sys2Proof.Machine

/-- Up to 55 bytes beyond the whole blocks leave room for the padding in one block, more need two
(40_codec_padding.md R131). -/
theorem paddedLength_eq (n : Nat) :
    n + 1 + zeroBytes n + 8 = 64 * (n / 64) + if n % 64 ≤ 55 then 64 else 128 := by
  rw [zeroBytes]
  split <;> omega

/-- Settles O44: the padded length, for a tail of no whole blocks and for a whole message. -/
theorem tailPadsToOneOrTwoBlocks : Obligations.TailPadsToOneOrTwoBlocks := by
  refine ⟨fun T e n hT => ?_, fun m e => ⟨padMd_length e m, fun hm => ?_, fun hm => ?_⟩⟩
  · rw [blocksOf_length, padTailMd_length, paddedLength_eq, Nat.div_eq_of_lt hT, Nat.mod_eq_of_lt hT]
    split <;> rfl
  · rw [padMd_length, paddedLength_eq, if_pos hm]
  · rw [padMd_length, paddedLength_eq, if_neg (by omega)]

end Sys2Proof.Machine
end

section
/-! SUPPORT. The invariant of the reachable states (10_state.md R24, R27, R30-R32, R39, 70_reset_and_hazards.md R356): it
holds at reset, every step keeps it, and no step from it is ENGINE_INVARIANT (60_exceptions.md R328). -/

namespace Sys2Proof.Machine

/-! ### The invariant by the fields it reads -/

/-- The invariant reads eight fields, so it passes to a state that agrees in them. -/
theorem StateInv.congr {s t : State} (h : StateInv s) (hphase : t.phase = s.phase) (herr : t.err = s.err)
    (herrCode : t.errCode = s.errCode) (halg : t.alg = s.alg) (hlen : t.len = s.len) (hdig : t.dig = s.dig)
    (halgo : t.algo = s.algo) : StateInv t where
  fields := (fieldsInRange_congr hphase herrCode halg).trans h.fields
  errorCode := by rw [herr, herrCode]; exact h.errorCode
  digest := by rw [hphase, hdig]; exact h.digest
  idle := by rw [hphase, hlen, halg]; exact h.idle
  link := by rw [hphase, halg, halgo]; exact h.link
  h4 := by rw [hphase, halg, halgo]; exact h.h4
  short := by rw [halg, hdig]; exact h.short

/-- In IDLE with nothing counted, no error and DIG 0 the invariant holds, whatever the algorithm state (R44). -/
theorem stateInv_of_idle {s : State} (hphase : s.phase = phaseIdle) (herr : s.err = false) (herrCode : s.errCode = 0)
    (halg : s.alg = 0) (hlen : s.len = 0) (hdig : s.dig = Vector.replicate 20 0) : StateInv s where
  fields := fieldsInRange_iff.mpr ⟨by rw [hphase]; decide, by simp [herrCode], by simp [halg]⟩
  errorCode := by simp [herr, herrCode]
  digest := fun _ => hdig
  idle := fun _ => ⟨hlen, halg⟩
  link := fun hp => absurd hphase hp
  h4 := fun hp => absurd hphase hp
  short := fun _ i _ => by simp [hdig]

/-- Settles O53: the reset values are those of IDLE. -/
theorem resetMeetsInvariant : Obligations.ResetMeetsInvariant :=
  stateInv_of_idle rfl rfl rfl rfl rfl rfl

theorem resetBlock_inv (s : State) : StateInv (resetBlock s) :=
  stateInv_of_idle rfl rfl rfl rfl rfl rfl

/-! ### Errors -/

/-- The codes of the errors are 1-5 (60_exceptions.md R322). -/
theorem errorCode_range (e : CommandError) : errorCode e ≠ 0 ∧ (errorCode e).toNat ≤ 5 := by
  cases e <;> decide

theorem StateInv.raiseError {s : State} (h : StateInv s) (e : CommandError) : StateInv (raiseError e s) := by
  cases he : s.err with
  | true => rwa [raiseError_of_err e he]
  | false =>
    obtain ⟨hphase, _, halg⟩ := fieldsInRange_iff.mp h.fields
    obtain ⟨hne, hle⟩ := errorCode_range e
    rw [raiseError_of_ok e he]
    exact { h with fields := fieldsInRange_iff.mpr ⟨hphase, hle, halg⟩, errorCode := iff_of_true rfl hne }

theorem StateInv.clearErrors {s : State} (h : StateInv s) : StateInv (clearErrors s) := by
  obtain ⟨hphase, _, halg⟩ := fieldsInRange_iff.mp h.fields
  exact { h with fields := fieldsInRange_iff.mpr ⟨hphase, Nat.zero_le 5, halg⟩, errorCode := by simp }

/-! ### Messages -/

/-- The clauses of the invariant about the algorithm state, once a message has been started (R24, R27). -/
def AlgoInv (alg : BitVec 3) (h : AlgoState) : Prop :=
  (alg = algMd2 → h.l = h.c[15]) ∧ (alg = algMd4 ∨ alg = algMd5 → h.h4 = 0)

theorem StateInv.algoInv {s : State} (h : StateInv s) (hp : s.phase = phaseAbsorb) : AlgoInv s.alg s.algo := by
  have hidle : s.phase ≠ phaseIdle := by rw [hp]; decide
  exact ⟨h.link hidle, h.h4 hidle⟩

/-- INIT writes L and C[15], or H4, with 0 (41_md2.md R153, 42_md4.md R181, 43_md5.md R210). -/
theorem initialAlgo_inv {code : BitVec 3} (hc : code.toNat ≤ 3) (h : AlgoState) :
    AlgoInv code (initialAlgo code h) := by
  obtain rfl | rfl | rfl | rfl := alg_cases hc
  · exact ⟨fun _ => by simp [initialAlgo, md2Init], fun ha => absurd ha (by decide)⟩
  · exact ⟨fun ha => absurd ha (by decide), fun _ => rfl⟩
  · exact ⟨fun ha => absurd ha (by decide), fun _ => rfl⟩
  · exact ⟨fun ha => absurd ha (by decide), fun ha => absurd ha (by decide)⟩

/-- Absorbing an MD2 block ends with the checksum link (R27). -/
theorem md2Absorb_link (h : AlgoState) (B : Vector Byte 16) : (md2Absorb h B).l = (md2Absorb h B).c[15] :=
  checksumLinkIsLastByte h.c h.l B

theorem blockFold_inv {code : BitVec 3} {h : AlgoState} (hi : AlgoInv code h) (blk : Vector Byte 64) :
    AlgoInv code (blockFold code blk h) := by
  refine ⟨?_, fun ha => ((blockFold_frame code blk h).2.2 ha).trans (hi.2 ha)⟩
  rintro rfl
  exact md2Absorb_link h (firstSixteen blk)

/-- The checksum block goes into X only, so the link is that of the padded tail (41_md2.md R159). -/
theorem tailFold_inv {code : BitVec 3} {h : AlgoState} (hi : AlgoInv code h) (tail : List Byte) (len : Length) :
    AlgoInv code (tailFold code tail len h) := by
  refine ⟨?_, fun ha => ((tailFold_frame code tail len h).2.2 ha).trans (hi.2 ha)⟩
  rintro rfl
  exact md2Absorb_link h (blockAt 16 (padTailMd2 tail) 0)

/-- Four bytes 0 end a 16-byte digest (10_state.md R39). -/
theorem getElem_append_zeros (D : Vector Byte 16) {i : Nat} (hi : i < 20) (h16 : 16 ≤ i) :
    (D ++ (Vector.replicate 4 0 : Vector Byte 4))[i] = 0 := by
  rw [Vector.getElem_append_right hi h16, Vector.getElem_replicate]

theorem digestOf_short {code : BitVec 3} (hc : code ≠ algSha1) (h : AlgoState) (i : Fin 20) (h16 : 16 ≤ i.val) :
    (digestOf code h)[i] = 0 := by
  rw [digestOf, if_neg hc]
  split
  · exact getElem_append_zeros (md2Digest h) i.isLt h16
  · exact getElem_append_zeros (wordsToBytes 4 .littleEndian _) i.isLt h16

theorem StateInv.startMessage {s : State} (h : StateInv s) {code : BitVec 3} (hc : code.toNat ≤ 3) :
    StateInv (startMessage code (initialAlgo code s.algo) s) where
  fields := fieldsInRange_iff.mpr ⟨show phaseAbsorb ≠ 3 by decide, (fieldsInRange_iff.mp h.fields).2.1, hc⟩
  errorCode := h.errorCode
  digest := fun _ => rfl
  idle := fun hp => absurd hp (show phaseAbsorb ≠ phaseIdle by decide)
  link := fun _ => (initialAlgo_inv hc s.algo).1
  h4 := fun _ => (initialAlgo_inv hc s.algo).2
  short := fun _ i _ => by simp

theorem StateInv.afterBlock {s : State} (h : StateInv s) (hp : s.phase = phaseAbsorb) :
    StateInv (afterBlock s (blockFold s.alg s.blk s.algo)) where
  fields := h.fields
  errorCode := h.errorCode
  digest := h.digest
  idle := fun hidle => absurd (hp.symm.trans hidle) (by decide)
  link := fun _ => (blockFold_inv (h.algoInv hp) s.blk).1
  h4 := fun _ => (blockFold_inv (h.algoInv hp) s.blk).2
  short := h.short

theorem StateInv.afterFinal {s : State} (h : StateInv s) (hp : s.phase = phaseAbsorb) (tail : List Byte)
    (len : Length) : StateInv (afterFinal s len (tailFold s.alg tail len s.algo)) where
  fields := by
    obtain ⟨_, herrCode, halg⟩ := fieldsInRange_iff.mp h.fields
    exact fieldsInRange_iff.mpr ⟨show phaseDone ≠ 3 by decide, herrCode, halg⟩
  errorCode := h.errorCode
  digest := fun hne => absurd rfl hne
  idle := fun hidle => absurd hidle (show phaseDone ≠ phaseIdle by decide)
  link := fun _ => (tailFold_inv (h.algoInv hp) tail len).1
  h4 := fun _ => (tailFold_inv (h.algoInv hp) tail len).2
  short := fun ha => digestOf_short ha _

/-! ### Steps -/

theorem StateInv.exec {s t : State} {i : Instr} (h : StateInv s) (hx : ExecCase s i t) : StateInv t := by
  cases hx with
  | nop | dropped => exact h
  | clrerr => exact h.clearErrors
  | srst => exact resetBlock_inv s
  | raised e => exact h.raiseError e
  | started code _ hc => exact h.startMessage hc
  | folded _ hp _ => exact h.afterBlock hp
  | finished tail _ hp _ _ => exact h.afterFinal hp (tailBytes tail s) (s.len + tailLength tail)

theorem StateInv.executeWord {s t : State} {w : Word} (h : StateInv s) (hx : executeWord w s = .next t) :
    StateInv t := by
  obtain ⟨_, rfl⟩ | ⟨i, _, hcase⟩ := executeWord_next hx
  · exact h.raiseError .illegalCmd
  · exact h.exec hcase

/-- A move of the outside writes none of the fields the invariant reads, reset apart (10_state.md R45). -/
theorem StateInv.hostStep {s t : State} {op : HostOp} (h : StateInv s) (hx : hostStep op s = .next t) :
    StateInv t := by
  obtain ⟨_, _, r, _, _, rfl⟩ | ⟨_, _, v, r, _, _, rfl⟩ | ⟨_, rfl⟩ | ⟨_, rfl⟩ | ⟨_, rfl⟩ := hostStep_next hx
  · exact h.congr rfl rfl rfl rfl rfl rfl rfl
  · exact h.congr (busWrite_phase r v s) (busWrite_err r v s) (busWrite_errCode r v s) (busWrite_alg r v s)
      (busWrite_len r v s) (busWrite_dig r v s) (busWrite_algo r v s)
  · exact h.congr rfl rfl rfl rfl rfl rfl rfl
  · exact h.congr rfl rfl rfl rfl rfl rfl rfl
  · exact resetBlock_inv s

/-- Settles O54: a step is an executed word retired, a move of the outside, or nothing. -/
theorem stepKeepsInvariant : Obligations.StepKeepsInvariant := by
  intro s t h hs
  obtain ⟨_, ⟨_, u, hu, rfl⟩ | ⟨_, _, rfl⟩ | ⟨_, p, _, hp⟩⟩ := step_cases hs
  · exact (h.executeWord hu).congr rfl rfl rfl rfl rfl rfl rfl
  · exact h
  · have hinputs : StateInv { s with inputs := inputsAfter p.1 p.2 s } := h.congr rfl rfl rfl rfl rfl rfl rfl
    exact hinputs.hostStep hp

/-- Settles O55: with the fields in range the engine step completes, and the outside moves or is stuck. -/
theorem engineInvariantIsUnreachable : Obligations.EngineInvariantIsUnreachable := by
  intro s h
  cases hm : engineMoves s with
  | true =>
    obtain ⟨t, ht, _⟩ := engineStepCompletes s h.fields
    rw [step_of_engineMoves h.fields hm, ht]
    exact nofun
  | false =>
    rw [step_of_not_engineMoves h.fields hm, inputStep]
    split
    next p hp =>
      obtain ⟨t, ht⟩ := hostStep_enabled { s with inputs := inputsAfter p.1 p.2 s } (nextInput_some hp).1
      rw [ht]
      exact nofun
    next => split <;> exact nofun

end Sys2Proof.Machine
end

section
/-! SUPPORT. What the spec leaves unspecified cannot be observed (10_state.md R42-R46, 93_implementation_defined.md U2): each
operation takes two states that no host can tell apart to two such states. -/

namespace Sys2Proof.Machine

/-! ### What the host sees -/

theorem SameObserved.statusWord_eq {s t : State} (h : SameObserved s t) : statusWord s = statusWord t := by
  rw [statusWord, statusWord, h.busy, h.phase, h.err, h.errCode, h.alg, h.ovr]

/-- A read returns the same value, a draw included (45_commands.md R270). -/
theorem SameObserved.readValue_eq {s t : State} (h : SameObserved s t) (r : WindowReg) :
    readValue r s = readValue r t := by
  cases r with
  | id | cmd | caps | reserved => rfl
  | status => exact h.statusWord_eq
  | lenLo | lenHi => simp only [readValue, h.busy, h.draws, h.len]
  | blk k => simp only [readValue, h.blk]
  | dig k => simp only [readValue, h.busy, h.draws, h.dig]

theorem SameObserved.readIsDraw_eq {s t : State} (h : SameObserved s t) (r : WindowReg) :
    readIsDraw r s = readIsDraw r t := by
  cases r with
  | lenLo | lenHi | dig => exact h.busy
  | id | cmd | caps | reserved | status | blk => rfl

theorem SameObserved.fieldsInRange_eq {s t : State} (h : SameObserved s t) : fieldsInRange s = fieldsInRange t :=
  fieldsInRange_congr h.phase h.errCode h.alg

/-- The order of the engine's steps and the outside's is the same (10_state.md R20). -/
theorem SameObserved.engineMoves_eq {s t : State} (h : SameObserved s t) : engineMoves s = engineMoves t := by
  rw [engineMoves, engineMoves, h.busy, h.inputs]

theorem SameObserved.inputsAfter_eq {s t : State} (h : SameObserved s t) (i : Input) (rest : List Input) :
    inputsAfter i rest s = inputsAfter i rest t := by
  rw [inputsAfter, inputsAfter, h.readValue_eq]

/-! ### The operations of a command -/

theorem SameObserved.raiseError {s t : State} (h : SameObserved s t) (e : CommandError) :
    SameObserved (raiseError e s) (raiseError e t) := by
  cases he : t.err with
  | true => rwa [raiseError_of_err e (h.err.trans he), raiseError_of_err e he]
  | false =>
    rw [raiseError_of_ok e (h.err.trans he), raiseError_of_ok e he]
    exact { h with err := rfl, errCode := rfl }

theorem SameObserved.clearErrors {s t : State} (h : SameObserved s t) :
    SameObserved (clearErrors s) (clearErrors t) :=
  { h with err := rfl, errCode := rfl, ovr := rfl }

/-- Reset draws the same free values from the same count (R44). -/
theorem SameObserved.resetBlock {s t : State} (h : SameObserved s t) :
    SameObserved (resetBlock s) (resetBlock t) where
  busy := rfl
  phase := rfl
  err := rfl
  errCode := rfl
  alg := rfl
  ovr := rfl
  len := rfl
  blk := rfl
  dig := rfl
  inputs := h.inputs
  reads := h.reads
  checks := h.checks
  draws := by simp only [resetBlock_draws, h.draws]
  pend := nofun
  algo := fun hp => absurd hp (show phaseIdle ≠ phaseAbsorb by decide)

/-- INIT writes all that its algorithm uses (R275). -/
theorem SameObserved.startMessage {s t : State} (h : SameObserved s t) {code : BitVec 3} (hc : code.toNat ≤ 3) :
    SameObserved (startMessage code (initialAlgo code s.algo) s) (startMessage code (initialAlgo code t.algo) t) :=
  { h with
    phase := rfl, alg := rfl, len := rfl, dig := rfl
    algo := fun _ => initialAlgo_agree hc s.algo t.algo }

theorem SameObserved.doInit {s t : State} (h : SameObserved s t) (code : BitVec 3) :
    SameObserved (doInit code s) (doInit code t) := by
  unfold Machine.doInit
  split
  · exact h.raiseError .unimplAlg
  · exact h.startMessage (by omega)

/-- BLOCK in ABSORB reads only the algorithm state of ALG (R276). -/
theorem SameObserved.afterBlock {s t : State} (h : SameObserved s t) (hp : s.phase = phaseAbsorb)
    (hc : s.alg.toNat ≤ 3) :
    SameObserved (afterBlock s (blockFold s.alg s.blk s.algo)) (afterBlock t (blockFold t.alg t.blk t.algo)) := by
  rw [← h.alg, ← h.blk]
  exact { h with
    len := by simp only [afterBlock_len, h.len, h.alg]
    draws := by simp only [afterBlock_draws, h.draws]
    algo := fun _ => blockFold_agree hc s.blk (h.algo hp) }

/-- FINAL in ABSORB writes a digest of the algorithm state of ALG, and nothing uses that state in DONE (R277). -/
theorem SameObserved.afterFinal {s t : State} (h : SameObserved s t) (hp : s.phase = phaseAbsorb)
    (hc : s.alg.toNat ≤ 3) (tail : List Byte) (len : Length) :
    SameObserved (afterFinal s len (tailFold s.alg tail len s.algo))
      (afterFinal t len (tailFold t.alg tail len t.algo)) :=
  { h with
    phase := rfl, len := rfl
    dig := by
      rw [afterFinal_dig, afterFinal_dig, ← h.alg]
      exact tailFold_agree hc tail len (h.algo hp)
    draws := by simp only [afterFinal_draws, h.draws]
    algo := fun hd => absurd hd (show phaseDone ≠ phaseAbsorb by decide) }

/-! ### Commands -/

theorem sameOutcome_throughErrorGate {s t : State} {o p : Outcome} (h : SameObserved s t) (ho : SameOutcome o p) :
    SameOutcome (throughErrorGate s o) (throughErrorGate t p) := by
  unfold throughErrorGate
  rw [h.err]
  split
  · exact h
  · exact ho

theorem sameOutcome_inAbsorb {s t : State} {o p : Outcome} (h : SameObserved s t)
    (ho : s.phase = phaseAbsorb → SameOutcome o p) : SameOutcome (inAbsorb s o) (inAbsorb t p) := by
  unfold inAbsorb
  rw [← h.phase]
  split
  · exact h.raiseError .notInit
  · split
    · exact h.raiseError .alreadyFinal
    · split
      next hp => exact ho hp
      next => exact rfl

theorem sameOutcome_foldBlock {s t : State} (h : SameObserved s t) (hc : s.alg.toNat ≤ 3)
    (hp : s.phase = phaseAbsorb) : SameOutcome (foldBlock s) (foldBlock t) := by
  rw [foldBlock_eq hc, foldBlock_eq (h.alg ▸ hc)]
  exact h.afterBlock hp hc

theorem sameOutcome_finishMessage {s t : State} (h : SameObserved s t) (hc : s.alg.toNat ≤ 3)
    (hp : s.phase = phaseAbsorb) (tail : BitVec 6) :
    SameOutcome (finishMessage tail s) (finishMessage tail t) := by
  by_cases hn : s.alg = algMd2 ∧ 16 ≤ tailCount tail
  · rw [finishMessage, finishMessage, if_pos hn, if_pos (h.alg ▸ hn)]
    exact h.raiseError .badTail
  · have htail : tailBytes tail t = tailBytes tail s := by rw [tailBytes, tailBytes, h.blk]
    rw [finishMessage_eq tail hc hn, finishMessage_eq tail (h.alg ▸ hc) (h.alg ▸ hn), htail, ← h.len]
    exact h.afterFinal hp hc (tailBytes tail s) (s.len + tailLength tail)

theorem sameOutcome_init {s t : State} (h : SameObserved s t) (code : BitVec 3) :
    SameOutcome (exec (initOfCode code) s) (exec (initOfCode code) t) := by
  rw [exec_initOfCode, exec_initOfCode]
  exact sameOutcome_throughErrorGate h (h.doInit code)

theorem sameOutcome_exec {s t : State} (h : SameObserved s t) (hc : s.alg.toNat ≤ 3) (i : Instr) :
    SameOutcome (exec i s) (exec i t) := by
  cases i with
  | nop => exact h
  | clrerr => exact h.clearErrors
  | srst => exact h.resetBlock
  | initMd2 => exact sameOutcome_init h 0
  | initMd4 => exact sameOutcome_init h 1
  | initMd5 => exact sameOutcome_init h 2
  | initSha1 => exact sameOutcome_init h 3
  | initSha224 => exact sameOutcome_init h 4
  | initSha256 => exact sameOutcome_init h 5
  | initSha384 => exact sameOutcome_init h 6
  | initSha512 => exact sameOutcome_init h 7
  | block => exact sameOutcome_throughErrorGate h (sameOutcome_inAbsorb h (sameOutcome_foldBlock h hc))
  | final tail =>
    exact sameOutcome_throughErrorGate h (sameOutcome_inAbsorb h fun hp => sameOutcome_finishMessage h hc hp tail)

/-! ### The engine step -/

theorem sameOutcome_executeWord {s t : State} (h : SameObserved s t) (hc : s.alg.toNat ≤ 3) (w : Word) :
    SameOutcome (executeWord w s) (executeWord w t) := by
  cases hd : decode w with
  | error e =>
    rw [executeWord_of_illegal s hd, executeWord_of_illegal t hd]
    exact h.raiseError .illegalCmd
  | ok i =>
    rw [executeWord_of_legal s hd, executeWord_of_legal t hd]
    exact sameOutcome_exec h hc i

/-- With BUSY cleared, PEND is no longer observed (R42). -/
theorem sameOutcome_retire {o p : Outcome} (h : SameOutcome o p) : SameOutcome (retire o) (retire p) := by
  match o, p, h with
  | .next u, .next v, (h : SameObserved u v) =>
    have hretired : SameObserved (clearBusy u) (clearBusy v) := { h with busy := rfl, pend := nofun }
    exact hretired
  | .fault q, .fault r, h => exact h
  | .refused q, .refused r, h => exact h

theorem busy_of_engineMoves {s : State} (h : engineMoves s = true) : s.busy = true :=
  (Bool.and_eq_true_iff.mp h).1

/-- While BUSY = 1 the pending words are the same (R42). -/
theorem sameOutcome_engineStep {s t : State} (h : SameObserved s t) (hc : s.alg.toNat ≤ 3) (hb : s.busy = true) :
    SameOutcome (engineStep s) (engineStep t) := by
  rw [engineStep, engineStep, ← h.pend hb]
  exact sameOutcome_retire (sameOutcome_executeWord h hc s.pend)

/-! ### The outside's move -/

theorem SameObserved.busRead {s t : State} (h : SameObserved s t) (r : WindowReg) :
    SameObserved (busRead r s) (busRead r t) :=
  { h with
    reads := by simp only [busRead_reads, h.readValue_eq r, h.reads]
    draws := by simp only [busRead_draws, h.readIsDraw_eq r, h.draws] }

theorem SameObserved.busWrite {s t : State} (h : SameObserved s t) (r : WindowReg) (v : Word) :
    SameObserved (busWrite r v s) (busWrite r v t) := by
  cases r with
  | cmd =>
    by_cases hb : s.busy = true
    · rw [Machine.busWrite, Machine.busWrite, if_pos hb, if_pos (h.busy ▸ hb)]
      exact { h with ovr := rfl }
    · rw [Machine.busWrite, Machine.busWrite, if_neg hb, if_neg (h.busy ▸ hb)]
      exact { h with busy := rfl, pend := fun _ => rfl }
  | blk k =>
    by_cases hb : s.busy = true
    · rw [Machine.busWrite, Machine.busWrite, if_pos hb, if_pos (h.busy ▸ hb)]
      exact { h with ovr := rfl }
    · rw [Machine.busWrite, Machine.busWrite, if_neg hb, if_neg (h.busy ▸ hb)]
      exact { h with blk := congrArg (setLane · k v) h.blk }
  | id | status | caps | lenLo | lenHi | dig | reserved => exact h

theorem sameOutcome_hostStep {s t : State} (h : SameObserved s t) (op : HostOp) :
    SameOutcome (hostStep op s) (hostStep op t) := by
  cases op with
  | read width off =>
    cases hr : admitted width off with
    | none => simp only [hostStep, hr]; exact rfl
    | some r => simp only [hostStep, hr]; exact h.busRead r
  | write width off v =>
    cases hr : admitted width off with
    | none => simp only [hostStep, hr]; exact rfl
    | some r => simp only [hostStep, hr]; exact h.busWrite r v
  | wait => exact h.busRead .status
  | checkErr =>
    have hfound : errorIn (readValue .status s) :: s.checks = errorIn (readValue .status t) :: t.checks := by
      rw [h.readValue_eq, h.checks]
    have hread := h.busRead .status
    exact show SameObserved _ _ from { hread with checks := hfound }
  | reset => exact h.resetBlock

theorem sameOutcome_inputStep {s t : State} (h : SameObserved s t) : SameOutcome (inputStep s) (inputStep t) := by
  unfold inputStep
  rw [← h.inputs]
  split
  next p _ =>
    rw [← h.inputsAfter_eq]
    refine sameOutcome_hostStep ?_ p.1.op
    exact { h with inputs := rfl }
  next =>
    split
    · exact h
    · exact rfl

/-- Settles O56: both states hold a field out of range, or both take the engine's step, or both the outside's. -/
theorem unspecifiedStateIsUnobservable : Obligations.UnspecifiedStateIsUnobservable := by
  intro s t h
  cases hf : fieldsInRange s with
  | false =>
    have hft : fieldsInRange t = false := h.fieldsInRange_eq ▸ hf
    simp only [step, hf, hft]
    exact rfl
  | true =>
    have hft : fieldsInRange t = true := h.fieldsInRange_eq ▸ hf
    have hmt := h.engineMoves_eq
    cases hm : engineMoves s with
    | true =>
      rw [step_of_engineMoves hf hm, step_of_engineMoves hft (hmt ▸ hm)]
      exact sameOutcome_engineStep h (fieldsInRange_iff.mp hf).2.2 (busy_of_engineMoves hm)
    | false =>
      rw [step_of_not_engineMoves hf hm, step_of_not_engineMoves hft (hmt ▸ hm)]
      exact sameOutcome_inputStep h

end Sys2Proof.Machine
end
